-- ==== Sys2Proof/Word.lean ====
section
/-! DEFINITION. The bit-vector types of the block's ports (R8, R9, R13, R14) and the three widths (R6). -/

namespace Sys2Proof

/-- A byte: 8 bits, bit 7 the most significant and "leading" one (R9). -/
abbrev Byte := BitVec 8

/-- A value port, 128 bits whatever the width of the operation (R8, R15). -/
abbrev Value := BitVec 128

/-- A length or byte-count port, 5 bits (R13, R14). -/
abbrev Count := BitVec 5

/-- The width `W` of a value type, one of 32, 64, 128 (R6). -/
inductive Width where
  | w32
  | w64
  | w128
  deriving DecidableEq, Repr

/-- `W` as a number of bits (R6). -/
def Width.bits : Width → Nat
  | .w32 => 32
  | .w64 => 64
  | .w128 => 128

end Sys2Proof
end

