-- ==== Sys2Proof/Config.lean ====
section
/-! DEFINITION. The one size fixed for every implementation of the block: the length of the byte windows (R8, R20).
The per-width constants `M(W)`, `NMARK(W)`, `OB(W)`, `cbase(W, L)` stand in Machine/Params.lean.
The spec leaves no value free (93_implementation_defined.md gives each open point a treatment and the numbered rules
fix a value), so there is no opaque constant here. -/

namespace Sys2Proof

/-- Both byte windows hold 18 bytes, the largest `max_bytes` (R8, R20). -/
abbrev Config.windowSize : Nat := 18

end Sys2Proof
end

