-- ==== Sys2Proof/Syntax.lean ====
section
/-! DEFINITION. The instruction set: one constructor per row of spec/opcode_table.json (R45).
The 27 rows of format `cmd` are the command words of R31 (a command has no operand field: its operands are ports, R13).
The 27 rows of format `byte0` are the first-byte patterns of R36, one per width and number `Z` of leading zero bits;
each holds the byte `b0` it was read from, and is well formed when that byte belongs to the row (R45).
A `byte0` row is "a row label, not an operation" (R45): no command word decodes to one. -/

namespace Sys2Proof

inductive Instr where
  | encU32
  | encS32
  | decU32
  | decS32
  | peek32
  | zz32
  | unzz32
  | pack32
  | unpack32
  | encU64
  | encS64
  | decU64
  | decS64
  | peek64
  | zz64
  | unzz64
  | pack64
  | unpack64
  | encU128
  | encS128
  | decU128
  | decS128
  | peek128
  | zz128
  | unzz128
  | pack128
  | unpack128
  | byte0W32Z0 (b0 : Byte)
  | byte0W32Z1 (b0 : Byte)
  | byte0W32Z2 (b0 : Byte)
  | byte0W32Z3 (b0 : Byte)
  | byte0W32Z4 (b0 : Byte)
  | byte0W32Z5 (b0 : Byte)
  | byte0W32Z6 (b0 : Byte)
  | byte0W32Z7 (b0 : Byte)
  | byte0W32Z8 (b0 : Byte)
  | byte0W64Z0 (b0 : Byte)
  | byte0W64Z1 (b0 : Byte)
  | byte0W64Z2 (b0 : Byte)
  | byte0W64Z3 (b0 : Byte)
  | byte0W64Z4 (b0 : Byte)
  | byte0W64Z5 (b0 : Byte)
  | byte0W64Z6 (b0 : Byte)
  | byte0W64Z7 (b0 : Byte)
  | byte0W64Z8 (b0 : Byte)
  | byte0W128Z0 (b0 : Byte)
  | byte0W128Z1 (b0 : Byte)
  | byte0W128Z2 (b0 : Byte)
  | byte0W128Z3 (b0 : Byte)
  | byte0W128Z4 (b0 : Byte)
  | byte0W128Z5 (b0 : Byte)
  | byte0W128Z6 (b0 : Byte)
  | byte0W128Z7 (b0 : Byte)
  | byte0W128Z8 (b0 : Byte)
  deriving DecidableEq, Repr

/-- The rows of format `cmd`: the 27 operations of R31. -/
def Instr.isCommand : Instr → Bool
  | .encU32 => true
  | .encS32 => true
  | .decU32 => true
  | .decS32 => true
  | .peek32 => true
  | .zz32 => true
  | .unzz32 => true
  | .pack32 => true
  | .unpack32 => true
  | .encU64 => true
  | .encS64 => true
  | .decU64 => true
  | .decS64 => true
  | .peek64 => true
  | .zz64 => true
  | .unzz64 => true
  | .pack64 => true
  | .unpack64 => true
  | .encU128 => true
  | .encS128 => true
  | .decU128 => true
  | .decS128 => true
  | .peek128 => true
  | .zz128 => true
  | .unzz128 => true
  | .pack128 => true
  | .unpack128 => true
  | .byte0W32Z0 _ => false
  | .byte0W32Z1 _ => false
  | .byte0W32Z2 _ => false
  | .byte0W32Z3 _ => false
  | .byte0W32Z4 _ => false
  | .byte0W32Z5 _ => false
  | .byte0W32Z6 _ => false
  | .byte0W32Z7 _ => false
  | .byte0W32Z8 _ => false
  | .byte0W64Z0 _ => false
  | .byte0W64Z1 _ => false
  | .byte0W64Z2 _ => false
  | .byte0W64Z3 _ => false
  | .byte0W64Z4 _ => false
  | .byte0W64Z5 _ => false
  | .byte0W64Z6 _ => false
  | .byte0W64Z7 _ => false
  | .byte0W64Z8 _ => false
  | .byte0W128Z0 _ => false
  | .byte0W128Z1 _ => false
  | .byte0W128Z2 _ => false
  | .byte0W128Z3 _ => false
  | .byte0W128Z4 _ => false
  | .byte0W128Z5 _ => false
  | .byte0W128Z6 _ => false
  | .byte0W128Z7 _ => false
  | .byte0W128Z8 _ => false

/-- The width `W` of a row, in its mnemonic (R31, R45). -/
def Instr.width : Instr → Width
  | .encU32 => .w32
  | .encS32 => .w32
  | .decU32 => .w32
  | .decS32 => .w32
  | .peek32 => .w32
  | .zz32 => .w32
  | .unzz32 => .w32
  | .pack32 => .w32
  | .unpack32 => .w32
  | .encU64 => .w64
  | .encS64 => .w64
  | .decU64 => .w64
  | .decS64 => .w64
  | .peek64 => .w64
  | .zz64 => .w64
  | .unzz64 => .w64
  | .pack64 => .w64
  | .unpack64 => .w64
  | .encU128 => .w128
  | .encS128 => .w128
  | .decU128 => .w128
  | .decS128 => .w128
  | .peek128 => .w128
  | .zz128 => .w128
  | .unzz128 => .w128
  | .pack128 => .w128
  | .unpack128 => .w128
  | .byte0W32Z0 _ => .w32
  | .byte0W32Z1 _ => .w32
  | .byte0W32Z2 _ => .w32
  | .byte0W32Z3 _ => .w32
  | .byte0W32Z4 _ => .w32
  | .byte0W32Z5 _ => .w32
  | .byte0W32Z6 _ => .w32
  | .byte0W32Z7 _ => .w32
  | .byte0W32Z8 _ => .w32
  | .byte0W64Z0 _ => .w64
  | .byte0W64Z1 _ => .w64
  | .byte0W64Z2 _ => .w64
  | .byte0W64Z3 _ => .w64
  | .byte0W64Z4 _ => .w64
  | .byte0W64Z5 _ => .w64
  | .byte0W64Z6 _ => .w64
  | .byte0W64Z7 _ => .w64
  | .byte0W64Z8 _ => .w64
  | .byte0W128Z0 _ => .w128
  | .byte0W128Z1 _ => .w128
  | .byte0W128Z2 _ => .w128
  | .byte0W128Z3 _ => .w128
  | .byte0W128Z4 _ => .w128
  | .byte0W128Z5 _ => .w128
  | .byte0W128Z6 _ => .w128
  | .byte0W128Z7 _ => .w128
  | .byte0W128Z8 _ => .w128

end Sys2Proof
end

