-- ==== Sys2Proof/WellFormed.lean ====
section
/-! DEFINITION. Which terms of the syntax stand for something the spec encodes.
Two checks: the four fields of a command word (R30, R32), made before a command is read from them, and the pattern
a first byte must match to belong to its `byte0` row (R45). -/

namespace Sys2Proof

/-- The four fields of a command word (R30). -/
structure CommandFields where
  zero : BitVec 2
  wsel : BitVec 2
  sgn  : BitVec 1
  op   : BitVec 3
  deriving DecidableEq, Repr

/-- The fields of a defined command word: none of the four conditions of R32 that make a word reserved holds. -/
def CommandFields.wf (f : CommandFields) : Bool :=
  f.zero == 0 && f.wsel != 3 && f.op != 7 && !(f.sgn == 1 && 2 ≤ f.op.toNat && f.op.toNat ≤ 6)

/-- A byte `b` belongs to a row when `b AND mask = match` (R45). -/
def inRow (mask pattern b : Byte) : Bool :=
  b &&& mask == pattern

/-- Well-formedness of an instruction: a command has no operand to check; the first byte of a `byte0` row matches
the row's `match` and `mask` of spec/opcode_table.json (R36, R45). -/
def Instr.wf : Instr → Bool
  | .encU32 => true
  | .encS32 => true
  | .decU32 => true
  | .decS32 => true
  | .peek32 => true
  | .zz32 => true
  | .unzz32 => true
  | .pack32 => true
  | .unpack32 => true
  | .encU64 => true
  | .encS64 => true
  | .decU64 => true
  | .decS64 => true
  | .peek64 => true
  | .zz64 => true
  | .unzz64 => true
  | .pack64 => true
  | .unpack64 => true
  | .encU128 => true
  | .encS128 => true
  | .decU128 => true
  | .decS128 => true
  | .peek128 => true
  | .zz128 => true
  | .unzz128 => true
  | .pack128 => true
  | .unpack128 => true
  | .byte0W32Z0 b0 => inRow 0x80 0x80 b0
  | .byte0W32Z1 b0 => inRow 0xC0 0x40 b0
  | .byte0W32Z2 b0 => inRow 0xE0 0x20 b0
  | .byte0W32Z3 b0 => inRow 0xF0 0x10 b0
  | .byte0W32Z4 b0 => inRow 0xF8 0x08 b0
  | .byte0W32Z5 b0 => inRow 0xFC 0x04 b0
  | .byte0W32Z6 b0 => inRow 0xFE 0x02 b0
  | .byte0W32Z7 b0 => inRow 0xFF 0x01 b0
  | .byte0W32Z8 b0 => inRow 0xFF 0x00 b0
  | .byte0W64Z0 b0 => inRow 0x80 0x80 b0
  | .byte0W64Z1 b0 => inRow 0xC0 0x40 b0
  | .byte0W64Z2 b0 => inRow 0xE0 0x20 b0
  | .byte0W64Z3 b0 => inRow 0xF0 0x10 b0
  | .byte0W64Z4 b0 => inRow 0xF8 0x08 b0
  | .byte0W64Z5 b0 => inRow 0xFC 0x04 b0
  | .byte0W64Z6 b0 => inRow 0xFE 0x02 b0
  | .byte0W64Z7 b0 => inRow 0xFF 0x01 b0
  | .byte0W64Z8 b0 => inRow 0xFF 0x00 b0
  | .byte0W128Z0 b0 => inRow 0x80 0x80 b0
  | .byte0W128Z1 b0 => inRow 0xC0 0x40 b0
  | .byte0W128Z2 b0 => inRow 0xE0 0x20 b0
  | .byte0W128Z3 b0 => inRow 0xF0 0x10 b0
  | .byte0W128Z4 b0 => inRow 0xF8 0x08 b0
  | .byte0W128Z5 b0 => inRow 0xFC 0x04 b0
  | .byte0W128Z6 b0 => inRow 0xFE 0x02 b0
  | .byte0W128Z7 b0 => inRow 0xFF 0x01 b0
  | .byte0W128Z8 b0 => inRow 0xFF 0x00 b0

end Sys2Proof
end

