-- ==== Sys2Proof/Decode.lean ====
section
/-! DEFINITION. The command decoder (R30 to R32), the first-byte decoder of the `byte0` rows (R36, R45), and after
them the encoders of both, written from R31's table of command words and from the rows' own first bytes.
Both decoders are total: on the 256 command words one answers an instruction or the name of the reserved case,
on the 256 first bytes the other answers a row at each width (no first byte is without a row). -/

namespace Sys2Proof

/-- Why a command word is reserved (R32). The first condition that holds, in this order, is the one named;
the spec gives the conditions no order and every reserved word is refused alike (log entry 4). -/
inductive Reserved where
  /-- `cmd[7:6] != 0`. -/
  | zeroField
  /-- `wsel = 3`. -/
  | widthSelect
  /-- `op = 7`. -/
  | operation
  /-- `sgn = 1` together with `op` in 2 .. 6. -/
  | signedOperation
  deriving DecidableEq, Repr

/-- The fields of a command word by bit position (R30). -/
def commandFields (cmd : Byte) : CommandFields :=
  ⟨cmd.extractLsb' 6 2, cmd.extractLsb' 4 2, cmd.extractLsb' 3 1, cmd.extractLsb' 0 3⟩

/-! The family of an operation at each width: `ENC.U` at width 32 is the row `ENC.U32`, and so on (R31). -/

/-- ENC.U at each width. -/
def Instr.encU : Width → Instr
  | .w32 => .encU32
  | .w64 => .encU64
  | .w128 => .encU128

/-- ENC.S at each width. -/
def Instr.encS : Width → Instr
  | .w32 => .encS32
  | .w64 => .encS64
  | .w128 => .encS128

/-- DEC.U at each width. -/
def Instr.decU : Width → Instr
  | .w32 => .decU32
  | .w64 => .decU64
  | .w128 => .decU128

/-- DEC.S at each width. -/
def Instr.decS : Width → Instr
  | .w32 => .decS32
  | .w64 => .decS64
  | .w128 => .decS128

/-- PEEK at each width. -/
def Instr.peek : Width → Instr
  | .w32 => .peek32
  | .w64 => .peek64
  | .w128 => .peek128

/-- ZZ at each width. -/
def Instr.zz : Width → Instr
  | .w32 => .zz32
  | .w64 => .zz64
  | .w128 => .zz128

/-- UNZZ at each width. -/
def Instr.unzz : Width → Instr
  | .w32 => .unzz32
  | .w64 => .unzz64
  | .w128 => .unzz128

/-- PACK at each width. -/
def Instr.pack : Width → Instr
  | .w32 => .pack32
  | .w64 => .pack64
  | .w128 => .pack128

/-- UNPACK at each width. -/
def Instr.unpack : Width → Instr
  | .w32 => .unpack32
  | .w64 => .unpack64
  | .w128 => .unpack128

/-- The width a width-select field names; 3 is reserved (R30). -/
def decodeWidth (wsel : BitVec 2) : Option Width :=
  if wsel = 0 then some .w32 else if wsel = 1 then some .w64 else if wsel = 2 then some .w128 else none

/-- The operation of an operation code at a width (R31), for the codes 0 .. 6 and the signs R31's table allows. -/
def decodeOperation (W : Width) (sgn : BitVec 1) (op : BitVec 3) : Except Reserved Instr :=
  match op.toNat with
  | 0 => .ok (if sgn = 1 then .encS W else .encU W)
  | 1 => .ok (if sgn = 1 then .decS W else .decU W)
  | 2 => if sgn = 1 then .error .signedOperation else .ok (.peek W)
  | 3 => if sgn = 1 then .error .signedOperation else .ok (.zz W)
  | 4 => if sgn = 1 then .error .signedOperation else .ok (.unzz W)
  | 5 => if sgn = 1 then .error .signedOperation else .ok (.pack W)
  | 6 => if sgn = 1 then .error .signedOperation else .ok (.unpack W)
  | _ => .error .operation

/-- The command decoder: the operation a command word selects, or the reserved case it falls under (R30 to R32). -/
def decode (cmd : Byte) : Except Reserved Instr :=
  let f := commandFields cmd
  if f.zero ≠ 0 then .error .zeroField
  else
    match decodeWidth f.wsel with
    | none => .error .widthSelect
    | some W => decodeOperation W f.sgn f.op

/-- The first-byte decoder: the `byte0` row of width `W` that a first byte belongs to, by the rows' `match` and
`mask` (R36, R45). -/
def decodeByte0 (W : Width) (b0 : Byte) : Instr :=
  match W with
  | .w32 =>
    if inRow 0x80 0x80 b0 then .byte0W32Z0 b0
    else if inRow 0xC0 0x40 b0 then .byte0W32Z1 b0
    else if inRow 0xE0 0x20 b0 then .byte0W32Z2 b0
    else if inRow 0xF0 0x10 b0 then .byte0W32Z3 b0
    else if inRow 0xF8 0x08 b0 then .byte0W32Z4 b0
    else if inRow 0xFC 0x04 b0 then .byte0W32Z5 b0
    else if inRow 0xFE 0x02 b0 then .byte0W32Z6 b0
    else if inRow 0xFF 0x01 b0 then .byte0W32Z7 b0
    else .byte0W32Z8 b0
  | .w64 =>
    if inRow 0x80 0x80 b0 then .byte0W64Z0 b0
    else if inRow 0xC0 0x40 b0 then .byte0W64Z1 b0
    else if inRow 0xE0 0x20 b0 then .byte0W64Z2 b0
    else if inRow 0xF0 0x10 b0 then .byte0W64Z3 b0
    else if inRow 0xF8 0x08 b0 then .byte0W64Z4 b0
    else if inRow 0xFC 0x04 b0 then .byte0W64Z5 b0
    else if inRow 0xFE 0x02 b0 then .byte0W64Z6 b0
    else if inRow 0xFF 0x01 b0 then .byte0W64Z7 b0
    else .byte0W64Z8 b0
  | .w128 =>
    if inRow 0x80 0x80 b0 then .byte0W128Z0 b0
    else if inRow 0xC0 0x40 b0 then .byte0W128Z1 b0
    else if inRow 0xE0 0x20 b0 then .byte0W128Z2 b0
    else if inRow 0xF0 0x10 b0 then .byte0W128Z3 b0
    else if inRow 0xF8 0x08 b0 then .byte0W128Z4 b0
    else if inRow 0xFC 0x04 b0 then .byte0W128Z5 b0
    else if inRow 0xFE 0x02 b0 then .byte0W128Z6 b0
    else if inRow 0xFF 0x01 b0 then .byte0W128Z7 b0
    else .byte0W128Z8 b0

/-- The decoder on the opcode table's numbering: the instruction whose one command word has the bits `w`.
A command is exactly one 8-bit word (R30), so nothing longer decodes. The `byte0` rows describe the first byte of an
encoded form, not a command word, and are read by `decodeByte0` (log entry 5). -/
def decodeTableWord (nbits w : Nat) : Option Instr :=
  if nbits ≤ 8 ∧ w < 2 ^ 8 then (decode (BitVec.ofNat 8 w)).toOption else none

/-- The encoder: the command word of R31's table for a command; for a `byte0` row the first byte itself. -/
def encode : Instr → Byte
  | .encU32 => 0x00
  | .encS32 => 0x08
  | .decU32 => 0x01
  | .decS32 => 0x09
  | .peek32 => 0x02
  | .zz32 => 0x03
  | .unzz32 => 0x04
  | .pack32 => 0x05
  | .unpack32 => 0x06
  | .encU64 => 0x10
  | .encS64 => 0x18
  | .decU64 => 0x11
  | .decS64 => 0x19
  | .peek64 => 0x12
  | .zz64 => 0x13
  | .unzz64 => 0x14
  | .pack64 => 0x15
  | .unpack64 => 0x16
  | .encU128 => 0x20
  | .encS128 => 0x28
  | .decU128 => 0x21
  | .decS128 => 0x29
  | .peek128 => 0x22
  | .zz128 => 0x23
  | .unzz128 => 0x24
  | .pack128 => 0x25
  | .unpack128 => 0x26
  | .byte0W32Z0 b0 => b0
  | .byte0W32Z1 b0 => b0
  | .byte0W32Z2 b0 => b0
  | .byte0W32Z3 b0 => b0
  | .byte0W32Z4 b0 => b0
  | .byte0W32Z5 b0 => b0
  | .byte0W32Z6 b0 => b0
  | .byte0W32Z7 b0 => b0
  | .byte0W32Z8 b0 => b0
  | .byte0W64Z0 b0 => b0
  | .byte0W64Z1 b0 => b0
  | .byte0W64Z2 b0 => b0
  | .byte0W64Z3 b0 => b0
  | .byte0W64Z4 b0 => b0
  | .byte0W64Z5 b0 => b0
  | .byte0W64Z6 b0 => b0
  | .byte0W64Z7 b0 => b0
  | .byte0W64Z8 b0 => b0
  | .byte0W128Z0 b0 => b0
  | .byte0W128Z1 b0 => b0
  | .byte0W128Z2 b0 => b0
  | .byte0W128Z3 b0 => b0
  | .byte0W128Z4 b0 => b0
  | .byte0W128Z5 b0 => b0
  | .byte0W128Z6 b0 => b0
  | .byte0W128Z7 b0 => b0
  | .byte0W128Z8 b0 => b0

/-- The decoder that reads the words of an instruction's format: the command decoder for the `cmd` rows, the
first-byte decoder at the row's width for the `byte0` rows (R45). -/
def decodeAs (i : Instr) (word : Byte) : Except Reserved Instr :=
  if i.isCommand then decode word else .ok (decodeByte0 i.width word)

end Sys2Proof
end

