-- ==== Sys2Proof/Machine/State.lean ====
section
/-! DEFINITION. What the machine consists of: the request ports and the response ports (R13, R14). The block keeps
nothing else (R10, R11, R120): no register, no flag, no counter, no mode, no memory. A state is one moment at the port:
the request the host presents and the response standing on the outputs (log entry 1). -/

namespace Sys2Proof.Machine

/-- The three error kinds (R101). Which causes raise each: R102, R103, R105. -/
inductive ErrorKind where
  | outOfRange
  | truncatedInput
  | invalidPrefix
  deriving DecidableEq, Repr

/-- The `status` output: `OK` or one of the three error kinds (R14, R101). Its 2-bit code is `Status.code`. -/
inductive Status where
  | ok
  | error (k : ErrorKind)
  deriving DecidableEq, Repr

/-- A byte window: 18 bytes, indexed 0 .. 17 (R20). An index is not an address; there is no memory (log entry 7). -/
abbrev Window := Vector Byte Config.windowSize

/-- The request ports, all sampled together (R13). -/
structure Request where
  /-- The command word (R30). -/
  cmd     : Byte
  /-- The value operand (R15). -/
  valIn   : Value
  /-- The class length operand of PACK (R13). -/
  lenIn   : Count
  /-- The input byte window (R20). -/
  winIn   : Window
  /-- The number of valid bytes at the front of the window (R21). -/
  availIn : Count
  deriving DecidableEq, Repr

/-- The response ports, all functions of the request of the same transaction (R14). -/
structure Response where
  status : Status
  /-- The value result (R15). -/
  valOut : Value
  /-- The byte count: bytes written, consumed or indicated (R14). -/
  lenOut : Count
  /-- The output byte window (R20). -/
  winOut : Window
  deriving DecidableEq, Repr

/-- The machine: the request presented and the response standing on the outputs. -/
structure State where
  req  : Request
  resp : Response
  deriving DecidableEq, Repr

/-- Reasons a step may stop with a fault. There are none: the block takes no trap and every failure is a `status` of
the response (R100), so this type has no constructor and no step can answer a fault (log entry 9). -/
inductive Fault
  deriving DecidableEq, Repr

/-- Reasons a step has no meaning. -/
inductive Refusal where
  /-- An arm of `exec` whose instruction has no meaning yet raises it; safe (nothing can be proved of the step).
  No arm of this model does. -/
  | notModelled (mnemonic : String)
  /-- `step` raises it when the command word presented is reserved: the spec defines no response and asks a model to
  refuse the word (R32, item U1). Safe: nothing can be proved of such a request (log entry 4). -/
  | reservedCommand (why : Reserved)
  deriving DecidableEq, Repr

/-- The window of 18 zero bytes. -/
def Window.zero : Window := Vector.replicate Config.windowSize 0

/-- A request with every port zero (log entry 2): the word 0x00 is ENC.U32, and the value is 0. -/
def Request.zero : Request :=
  ⟨0x00, 0, 0, Window.zero, 0⟩

/-- The response to `Request.zero`, `ENC.U32 0 -> OK, len 1, out [80]` (R18: the response is `F(request)` at any
reset; the vector is the spec's, 95_test_vectors.md section 4). -/
def Response.atReset : Response :=
  ⟨.ok, 0, 1, #v[0x80, 0, 0, 0, 0, 0, 0, 0, 0, 0, 0, 0, 0, 0, 0, 0, 0, 0]⟩

/-- The machine after reset. The block has no state to reset (R18, R120); the ports hold the request the log names
(entry 2) and the response to it (entry 3). -/
def State.reset : State := ⟨Request.zero, Response.atReset⟩

end Sys2Proof.Machine
end

