-- ==== Sys2Proof/Machine/Flags.lean ====
section
/-! DEFINITION. The `status` output (R14, R100, R101): the numeric codes, and the status of a computation that either
succeeds or raises one error kind. The block has no flag and no condition code kept between operations (R10). -/

namespace Sys2Proof.Machine

/-- The number of an error kind (R101). -/
def ErrorKind.code : ErrorKind → BitVec 2
  | .outOfRange => 1
  | .truncatedInput => 2
  | .invalidPrefix => 3

/-- The 2-bit code of a status on its port: 0 `OK`, 1 `OutOfRange`, 2 `TruncatedInput`, 3 `InvalidPrefix` (R101). -/
def Status.code : Status → BitVec 2
  | .ok => 0
  | .error k => k.code

/-- The status a computation is reported with: `OK`, or the kind it raised (R100, R106). -/
def statusOf {α : Type} : Except ErrorKind α → Status
  | .ok _ => .ok
  | .error k => .error k

end Sys2Proof.Machine
end

