-- ==== Sys2Proof/Machine/Operands.lean ====
section
/-! DEFINITION. How an operation reads its request ports: the value operand as unsigned or signed with the two range
predicates (R15), the class length operand (R13), the saturating count of valid bytes (R21), and the bytes of the input
window (R9, R20, R23). -/

namespace Sys2Proof.Machine

/-- Byte `i` of a window, `i` in 0 .. 17 (R20). No operation reads an index above 17 (R23); there this gives 0
(log entry 16). -/
def Window.byte (w : Window) (i : Nat) : Byte :=
  w.toList.getD i 0

/-- `MemRead(a, n)`: the bytes `a .. a+n-1` of a window in index order (R9). -/
def Window.memRead (w : Window) (a n : Nat) : List Byte :=
  (List.range n).map fun k => w.byte (a + k)

/-- `val_in` read as an unsigned 128-bit integer (R15). -/
def Request.valUnsigned (r : Request) : Nat :=
  r.valIn.toNat

/-- `val_in` read as a signed 128-bit integer, in two's complement (R15). -/
def Request.valSigned (r : Request) : Int :=
  r.valIn.toInt

/-- `len_in`, an unsigned integer 0 .. 31 (R13). -/
def Request.classLength (r : Request) : Nat :=
  r.lenIn.toNat

/-- `avail = min(avail_in, 18)`: the values 19 .. 31 behave as 18 (R21). -/
def Request.avail (r : Request) : Nat :=
  min r.availIn.toNat Config.windowSize

/-- `win_in[0]`, the first byte (R13, R51). -/
def Request.firstByte (r : Request) : Byte :=
  r.winIn.byte 0

/-- `in_range_u(W, v)`: `v <= 2^W - 1` (R15). -/
abbrev inRangeU (W : Width) (v : Nat) : Prop :=
  v ≤ 2 ^ W.bits - 1

/-- `in_range_s(W, v)`: `-2^(W-1) <= n <= 2^(W-1) - 1` (R15). -/
abbrev inRangeS (W : Width) (n : Int) : Prop :=
  -2 ^ (W.bits - 1) ≤ n ∧ n ≤ 2 ^ (W.bits - 1) - 1

end Sys2Proof.Machine
end

