-- ==== Sys2Proof/Machine/Params.lean ====
section
/-! DEFINITION. The per-width constants `M(W)`, `NMARK(W)`, `OB(W)`, `cbase(W, L)` and the thresholds `base(L)`
(R6, R7, R33). Every other definition is written in these names and not in the numbers (item U5). -/

namespace Sys2Proof.Machine

/-- `M(W)`, the greatest encoded length of a type: 5, 9, 18 (R6). -/
def maxBytes : Width → Nat
  | .w32 => 5
  | .w64 => 9
  | .w128 => 18

/-- `NMARK(W) = min(M(W) - 1, 8)`, the number of marker classes the encoder uses (R7). -/
def nmark (W : Width) : Nat :=
  min (maxBytes W - 1) 8

/-- `base(L)`, the lowest value of class `L`: the sum of `2^(7i)` over `i = 1 .. L-1`, with `base(1) = 0` (R33).
The spec defines it for `L >= 1`; the value at 0 is never read (log entry 16). -/
def base : Nat → Nat
  | 0 => 0
  | 1 => 0
  | L + 2 => base (L + 1) + 2 ^ (7 * (L + 1))

/-- `OB(W) = base(NMARK(W) + 1)`, the lowest value of the overflow class (R7). -/
def ovfBase (W : Width) : Nat :=
  base (nmark W + 1)

/-- `cbase(W, L) = base(min(L, 9))`, the lowest value of the class of length `L` at width `W` (R7, R42). -/
def cbase (_W : Width) (L : Nat) : Nat :=
  base (min L 9)

end Sys2Proof.Machine
end

