-- ==== Sys2Proof/Machine/Ops.lean ====
section
/-! DEFINITION. The named operations the meanings share: writing the response, raising an error, and the functions of
the units LPA, PPU, ENC, DEC and ZZU. The byte layout of an encoded form is known to `packMarker`, `packOvf` and
`unpack` and to nothing else (items U4, D10, D11). -/

namespace Sys2Proof.Machine

/-! ## The response -/

/-- The window whose first bytes are `out` and whose every other byte is 0x00: `MemWrite(0, L, out)` (R9, R16, R24). -/
def Window.memWrite (out : List Byte) : Window :=
  Vector.ofFn fun i => out.getD i.val 0

/-- `raise <Kind>`: the operation ends with the code of the kind and every other output zero (R106).
This is all there is to an error: nothing is saved, no mode changes and nothing returns from it (R100, R107). -/
def raise (k : ErrorKind) : Response :=
  ⟨.error k, 0, 0, Window.zero⟩

/-- Success with a byte count alone: the outputs PEEK writes (R14, R51). -/
def okLength (L : Nat) : Response :=
  ⟨.ok, 0, BitVec.ofNat 5 L, Window.zero⟩

/-- Success with an encoded form: the outputs ENC and PACK write (R14, R24, R58, R68). -/
def okForm (out : List Byte) : Response :=
  ⟨.ok, 0, BitVec.ofNat 5 out.length, Window.memWrite out⟩

/-- Success with a value and the byte count that goes with it: the outputs DEC and UNPACK write, and with count 0 those
ZZ and UNZZ write (R14, R62, R74, R84, R88). -/
def okValue (v : Value) (L : Nat) : Response :=
  ⟨.ok, v, BitVec.ofNat 5 L, Window.zero⟩

/-- The response of a computation: what `f` makes of its result, or the error it raised (R106). -/
def deliver {α : Type} (f : α → Response) : Except ErrorKind α → Response
  | .ok a => f a
  | .error k => raise k

/-- A transaction's one atomic step: the response ports take the response, the request ports stay as the host holds
them (R12, R122). -/
def State.respond (s : State) (r : Response) : Host.Outcome State Fault Refusal :=
  .next { s with resp := r }

/-! ## LPA: the length-prefix analyzer -/

/-- The form of an encoded form (R38, R39). -/
inductive Form where
  | marker
  | overflow
  deriving DecidableEq, Repr

/-- `clz8(b)`: the least `z` in 0 .. 7 with `b[7 - z] = 1`, or 8 when there is none (R9). -/
def clz8 (b : Byte) : Nat :=
  ((List.range 8).find? fun z => b.getLsbD (7 - z)).getD 8

/-- `lpa(W, b0)`: the length and form a first byte announces, or `InvalidPrefix` (R50). -/
def lpa (W : Width) (b0 : Byte) : Except ErrorKind (Nat × Form) :=
  let Z := clz8 b0
  if Z = 8 then .ok (maxBytes W, .overflow)
  else
    let L := Z + 1
    if maxBytes W < L then .error .invalidPrefix else .ok (L, .marker)

/-! ## PPU: the payload packer and unpacker -/

/-- The `n` low bytes of an integer, least significant first: byte `j` is `floor(P / 2^(8j)) mod 256` (R38, R39). -/
def splitBytes : Nat → Nat → List Byte
  | 0, _ => []
  | n + 1, P => BitVec.ofNat 8 P :: splitBytes n (P / 256)

/-- The integer whose bytes, least significant first, are given: the sum of byte `j` times `2^(8j)` (R38, R39). -/
def joinBytes : List Byte → Nat
  | [] => 0
  | b :: bs => b.toNat + 256 * joinBytes bs

/-- `pack_marker(L, P)`: the `L` bytes of the marker form, with `r = 8 - L` payload bits under the marker in byte 0 and
the others in the bytes after it (R38, R55). Its domain is `L` in 1 .. 8 and `P < 2^(7L)`. -/
def packMarker (L P : Nat) : List Byte :=
  let r := 8 - L
  BitVec.ofNat 8 (2 ^ r + P % 2 ^ r) :: splitBytes (L - 1) (P / 2 ^ r)

/-- `pack_ovf(W, Q)`: the `M(W)` bytes of the overflow form, a zero byte and the payload (R39, R56).
Its domain is `Q < 2^(8 (M(W) - 1))`. -/
def packOvf (W : Width) (Q : Nat) : List Byte :=
  0x00 :: splitBytes (maxBytes W - 1) Q

/-- The payload of a form of length `L` at the front of a window (R57; R38 and R39 read the other way). -/
def payloadOf (form : Form) (L : Nat) (win : Window) : Nat :=
  match form with
  | .marker => (win.byte 0).toNat % 2 ^ (8 - L) + 2 ^ (8 - L) * joinBytes (win.memRead 1 (L - 1))
  | .overflow => joinBytes (win.memRead 1 (L - 1))

/-- `unpack(W, win, avail)`: the length, form and payload of the encoded form at the front of a window, the tests in
the order empty, prefix, truncation (R57, R104). -/
def unpack (W : Width) (win : Window) (avail : Nat) : Except ErrorKind (Nat × Form × Nat) :=
  if avail = 0 then .error .truncatedInput
  else
    match lpa W (win.byte 0) with
    | .error k => .error k
    | .ok (L, form) => if avail < L then .error .truncatedInput else .ok (L, form, payloadOf form L win)

/-- PACK's computation: the form of a class length and a payload; the length test comes first (R58). -/
def packForm (W : Width) (L P : Nat) : Except ErrorKind (List Byte) :=
  if 1 ≤ L ∧ L ≤ nmark W then
    if 2 ^ (7 * L) ≤ P then .error .outOfRange else .ok (packMarker L P)
  else if L = maxBytes W then
    if 2 ^ (8 * (maxBytes W - 1)) ≤ P then .error .outOfRange else .ok (packOvf W P)
  else .error .invalidPrefix

/-- UNPACK's computation: the payload, which must fit the value port, and the length (R62). -/
def unpackPayload (W : Width) (win : Window) (avail : Nat) : Except ErrorKind (Nat × Nat) :=
  match unpack W win avail with
  | .error k => .error k
  | .ok (L, _, pay) => if 2 ^ 128 ≤ pay then .error .outOfRange else .ok (pay, L)

/-! ## ENC: the encoder -/

/-- `class_of(W, v)`: the first `L` in 1 .. NMARK(W) with `v < base(L + 1)`, a marker class, else the overflow class
(R67). -/
def classOf (W : Width) (v : Nat) : Nat × Form :=
  match (List.range (nmark W)).find? fun k => v < base (k + 2) with
  | some k => (k + 1, .marker)
  | none => (maxBytes W, .overflow)

/-- The canonical encoded form of a value in range (R40, R68). -/
def canonicalForm (W : Width) (v : Nat) : List Byte :=
  match classOf W v with
  | (L, .marker) => packMarker L (v - base L)
  | (_, .overflow) => packOvf W (v - ovfBase W)

/-- Encoding an unsigned integer: out of the width's range it raises `OutOfRange` (R68). -/
def encU (W : Width) (v : Nat) : Except ErrorKind (List Byte) :=
  if inRangeU W v then .ok (canonicalForm W v) else .error .outOfRange

/-! ## DEC: the decoder -/

/-- `dec_u(W, win, avail)`: the value, which must not exceed `2^W - 1`, and the length (R73). The sum is on integers
and cannot wrap. -/
def decU (W : Width) (win : Window) (avail : Nat) : Except ErrorKind (Nat × Nat) :=
  match unpack W win avail with
  | .error k => .error k
  | .ok (L, _, pay) =>
    let v := cbase W L + pay
    if 2 ^ W.bits - 1 < v then .error .outOfRange else .ok (v, L)

/-! ## ZZU: the zigzag transform -/

/-- `zigzag_W`, on `W`-bit vectors: `(x << 1) XOR (x >> (W-1))` with the arithmetic shift (R81). -/
def zigzagBits {n : Nat} (x : BitVec n) : BitVec n :=
  (x <<< 1) ^^^ x.sshiftRight (n - 1)

/-- `unzigzag_W`, on `W`-bit vectors: `(u >> 1) XOR -(u & 1)` with the logical shift (R82). -/
def unzigzagBits {n : Nat} (u : BitVec n) : BitVec n :=
  (u >>> 1) ^^^ -(u &&& 1#n)

/-- `zigzag_W(n)` of a signed integer in range, as an unsigned integer (R81). -/
def zigzag (W : Width) (n : Int) : Nat :=
  (zigzagBits (BitVec.ofInt W.bits n)).toNat

/-- `unzigzag_W(u)` of an unsigned integer in range, as a signed integer (R82). -/
def unzigzag (W : Width) (u : Nat) : Int :=
  (unzigzagBits (BitVec.ofNat W.bits u)).toInt

/-- A signed operand's zigzag image: out of the width's range it raises `OutOfRange` (R84, R92). -/
def zz (W : Width) (n : Int) : Except ErrorKind Nat :=
  if inRangeS W n then .ok (zigzag W n) else .error .outOfRange

/-- The inverse on an unsigned operand: out of the width's range it raises `OutOfRange` (R88). -/
def unzz (W : Width) (u : Nat) : Except ErrorKind Int :=
  if inRangeU W u then .ok (unzigzag W u) else .error .outOfRange

/-- Encoding a signed integer: its range test, then exactly as the unsigned encoder on its zigzag image (R92). -/
def encS (W : Width) (n : Int) : Except ErrorKind (List Byte) :=
  match zz W n with
  | .error k => .error k
  | .ok u => encU W u

/-- Decoding a signed integer: `dec_u`, with its range test, then the inverse transform and no further test (R96). -/
def decS (W : Width) (win : Window) (avail : Nat) : Except ErrorKind (Int × Nat) :=
  match decU W win avail with
  | .error k => .error k
  | .ok (u, L) => .ok (unzigzag W u, L)

/-! ## Values on the port -/

/-- An unsigned result on `val_out`, zero-extended (R15). -/
def ofUnsigned (v : Nat) : Value :=
  BitVec.ofNat 128 v

/-- A signed result on `val_out`, sign-extended two's complement (R15). -/
def ofSigned (n : Int) : Value :=
  BitVec.ofInt 128 n

end Sys2Proof.Machine
end

