-- ==== Sys2Proof/Machine/Analyzer.lean ====
section
/-! DEFINITION. Unit LPA: PEEK.32, PEEK.64, PEEK.128 (R51 to R54). -/

namespace Sys2Proof.Machine

/-- PEEK: the length the first byte announces; `avail_in` and every other byte are not read (R51). -/
def peek (W : Width) (s : State) : Host.Outcome State Fault Refusal :=
  s.respond (deliver (fun a => okLength a.1) (lpa W s.req.firstByte))

/-- PEEK.32 (R52). -/
def execPeek32 (s : State) : Host.Outcome State Fault Refusal :=
  peek .w32 s

/-- PEEK.64 (R53). -/
def execPeek64 (s : State) : Host.Outcome State Fault Refusal :=
  peek .w64 s

/-- PEEK.128 (R54). -/
def execPeek128 (s : State) : Host.Outcome State Fault Refusal :=
  peek .w128 s

end Sys2Proof.Machine
end

