-- ==== Sys2Proof/Machine/Decoder.lean ====
section
/-! DEFINITION. Unit DEC: DEC.U and DEC.S at the three widths (R74 to R77, R96 to R99). -/

namespace Sys2Proof.Machine

/-- DEC, unsigned: the value at the front of the input window and the bytes it took (R74). -/
def decodeUnsigned (W : Width) (s : State) : Host.Outcome State Fault Refusal :=
  s.respond (deliver (fun a => okValue (ofUnsigned a.1) a.2) (decU W s.req.winIn s.req.avail))

/-- DEC, signed: the inverse transform of what DEC unsigned finds (R96). -/
def decodeSigned (W : Width) (s : State) : Host.Outcome State Fault Refusal :=
  s.respond (deliver (fun a => okValue (ofSigned a.1) a.2) (decS W s.req.winIn s.req.avail))

/-- DEC.U32 (R75). -/
def execDecU32 (s : State) : Host.Outcome State Fault Refusal :=
  decodeUnsigned .w32 s

/-- DEC.U64 (R76). -/
def execDecU64 (s : State) : Host.Outcome State Fault Refusal :=
  decodeUnsigned .w64 s

/-- DEC.U128 (R77). -/
def execDecU128 (s : State) : Host.Outcome State Fault Refusal :=
  decodeUnsigned .w128 s

/-- DEC.S32 (R97). -/
def execDecS32 (s : State) : Host.Outcome State Fault Refusal :=
  decodeSigned .w32 s

/-- DEC.S64 (R98). -/
def execDecS64 (s : State) : Host.Outcome State Fault Refusal :=
  decodeSigned .w64 s

/-- DEC.S128 (R99). -/
def execDecS128 (s : State) : Host.Outcome State Fault Refusal :=
  decodeSigned .w128 s

end Sys2Proof.Machine
end

