-- ==== Sys2Proof/Machine/Encoder.lean ====
section
/-! DEFINITION. Unit ENC: ENC.U and ENC.S at the three widths (R68 to R71, R92 to R95). -/

namespace Sys2Proof.Machine

/-- ENC, unsigned: the canonical form of `val_in` (R68). -/
def encodeUnsigned (W : Width) (s : State) : Host.Outcome State Fault Refusal :=
  s.respond (deliver okForm (encU W s.req.valUnsigned))

/-- ENC, signed: the canonical form of the zigzag image of `val_in` (R92). -/
def encodeSigned (W : Width) (s : State) : Host.Outcome State Fault Refusal :=
  s.respond (deliver okForm (encS W s.req.valSigned))

/-- ENC.U32 (R69). -/
def execEncU32 (s : State) : Host.Outcome State Fault Refusal :=
  encodeUnsigned .w32 s

/-- ENC.U64 (R70). -/
def execEncU64 (s : State) : Host.Outcome State Fault Refusal :=
  encodeUnsigned .w64 s

/-- ENC.U128 (R71). -/
def execEncU128 (s : State) : Host.Outcome State Fault Refusal :=
  encodeUnsigned .w128 s

/-- ENC.S32 (R93). -/
def execEncS32 (s : State) : Host.Outcome State Fault Refusal :=
  encodeSigned .w32 s

/-- ENC.S64 (R94). -/
def execEncS64 (s : State) : Host.Outcome State Fault Refusal :=
  encodeSigned .w64 s

/-- ENC.S128 (R95). -/
def execEncS128 (s : State) : Host.Outcome State Fault Refusal :=
  encodeSigned .w128 s

end Sys2Proof.Machine
end

