-- ==== Sys2Proof/Machine/FirstByte.lean ====
section
/-! DEFINITION. The `byte0` rows of the opcode table: what the length-prefix analyzer answers for a first byte of
each pattern, as R36's table gives it row by row and width by width. These meanings do not go through `lpa`: the table
and the algorithm of R50 are two accounts of one thing. A row is no operation (R45); its effect is the response of PEEK
of its width to such a first byte, since PEEK "exposes it alone" (40_prefix_analyzer.md; log entry 5). -/

namespace Sys2Proof.Machine

/-- A row whose status is `OK`: the response is its length (R36, R51). -/
def firstByteOk (L : Nat) (s : State) : Host.Outcome State Fault Refusal :=
  s.respond (okLength L)

/-- A row whose status is `InvalidPrefix` (R36, R51). -/
def firstByteInvalid (s : State) : Host.Outcome State Fault Refusal :=
  s.respond (raise .invalidPrefix)

/-- BYTE0.32.Z0: marker, `L = 1` (R36). -/
def execByte0W32Z0 (_b0 : Byte) (s : State) : Host.Outcome State Fault Refusal :=
  firstByteOk 1 s

/-- BYTE0.32.Z1: marker, `L = 2` (R36). -/
def execByte0W32Z1 (_b0 : Byte) (s : State) : Host.Outcome State Fault Refusal :=
  firstByteOk 2 s

/-- BYTE0.32.Z2: marker, `L = 3` (R36). -/
def execByte0W32Z2 (_b0 : Byte) (s : State) : Host.Outcome State Fault Refusal :=
  firstByteOk 3 s

/-- BYTE0.32.Z3: marker, `L = 4` (R36). -/
def execByte0W32Z3 (_b0 : Byte) (s : State) : Host.Outcome State Fault Refusal :=
  firstByteOk 4 s

/-- BYTE0.32.Z4: marker, `L = 5`, decoder only (R41) (R36). -/
def execByte0W32Z4 (_b0 : Byte) (s : State) : Host.Outcome State Fault Refusal :=
  firstByteOk 5 s

/-- BYTE0.32.Z5: `InvalidPrefix`, since `L = 6 > 5` (R36). -/
def execByte0W32Z5 (_b0 : Byte) (s : State) : Host.Outcome State Fault Refusal :=
  firstByteInvalid s

/-- BYTE0.32.Z6: `InvalidPrefix`, since `L = 7 > 5` (R36). -/
def execByte0W32Z6 (_b0 : Byte) (s : State) : Host.Outcome State Fault Refusal :=
  firstByteInvalid s

/-- BYTE0.32.Z7: `InvalidPrefix`, since `L = 8 > 5` (R36). -/
def execByte0W32Z7 (_b0 : Byte) (s : State) : Host.Outcome State Fault Refusal :=
  firstByteInvalid s

/-- BYTE0.32.Z8: overflow, `L = 5` (R36). -/
def execByte0W32Z8 (_b0 : Byte) (s : State) : Host.Outcome State Fault Refusal :=
  firstByteOk 5 s

/-- BYTE0.64.Z0: marker, `L = 1` (R36). -/
def execByte0W64Z0 (_b0 : Byte) (s : State) : Host.Outcome State Fault Refusal :=
  firstByteOk 1 s

/-- BYTE0.64.Z1: marker, `L = 2` (R36). -/
def execByte0W64Z1 (_b0 : Byte) (s : State) : Host.Outcome State Fault Refusal :=
  firstByteOk 2 s

/-- BYTE0.64.Z2: marker, `L = 3` (R36). -/
def execByte0W64Z2 (_b0 : Byte) (s : State) : Host.Outcome State Fault Refusal :=
  firstByteOk 3 s

/-- BYTE0.64.Z3: marker, `L = 4` (R36). -/
def execByte0W64Z3 (_b0 : Byte) (s : State) : Host.Outcome State Fault Refusal :=
  firstByteOk 4 s

/-- BYTE0.64.Z4: marker, `L = 5` (R36). -/
def execByte0W64Z4 (_b0 : Byte) (s : State) : Host.Outcome State Fault Refusal :=
  firstByteOk 5 s

/-- BYTE0.64.Z5: marker, `L = 6` (R36). -/
def execByte0W64Z5 (_b0 : Byte) (s : State) : Host.Outcome State Fault Refusal :=
  firstByteOk 6 s

/-- BYTE0.64.Z6: marker, `L = 7` (R36). -/
def execByte0W64Z6 (_b0 : Byte) (s : State) : Host.Outcome State Fault Refusal :=
  firstByteOk 7 s

/-- BYTE0.64.Z7: marker, `L = 8` (R36). -/
def execByte0W64Z7 (_b0 : Byte) (s : State) : Host.Outcome State Fault Refusal :=
  firstByteOk 8 s

/-- BYTE0.64.Z8: overflow, `L = 9` (R36). -/
def execByte0W64Z8 (_b0 : Byte) (s : State) : Host.Outcome State Fault Refusal :=
  firstByteOk 9 s

/-- BYTE0.128.Z0: marker, `L = 1` (R36). -/
def execByte0W128Z0 (_b0 : Byte) (s : State) : Host.Outcome State Fault Refusal :=
  firstByteOk 1 s

/-- BYTE0.128.Z1: marker, `L = 2` (R36). -/
def execByte0W128Z1 (_b0 : Byte) (s : State) : Host.Outcome State Fault Refusal :=
  firstByteOk 2 s

/-- BYTE0.128.Z2: marker, `L = 3` (R36). -/
def execByte0W128Z2 (_b0 : Byte) (s : State) : Host.Outcome State Fault Refusal :=
  firstByteOk 3 s

/-- BYTE0.128.Z3: marker, `L = 4` (R36). -/
def execByte0W128Z3 (_b0 : Byte) (s : State) : Host.Outcome State Fault Refusal :=
  firstByteOk 4 s

/-- BYTE0.128.Z4: marker, `L = 5` (R36). -/
def execByte0W128Z4 (_b0 : Byte) (s : State) : Host.Outcome State Fault Refusal :=
  firstByteOk 5 s

/-- BYTE0.128.Z5: marker, `L = 6` (R36). -/
def execByte0W128Z5 (_b0 : Byte) (s : State) : Host.Outcome State Fault Refusal :=
  firstByteOk 6 s

/-- BYTE0.128.Z6: marker, `L = 7` (R36). -/
def execByte0W128Z6 (_b0 : Byte) (s : State) : Host.Outcome State Fault Refusal :=
  firstByteOk 7 s

/-- BYTE0.128.Z7: marker, `L = 8` (R36). -/
def execByte0W128Z7 (_b0 : Byte) (s : State) : Host.Outcome State Fault Refusal :=
  firstByteOk 8 s

/-- BYTE0.128.Z8: overflow, `L = 18` (R36). -/
def execByte0W128Z8 (_b0 : Byte) (s : State) : Host.Outcome State Fault Refusal :=
  firstByteOk 18 s

end Sys2Proof.Machine
end

