-- ==== Sys2Proof/Machine/PackUnpack.lean ====
section
/-! DEFINITION. Unit PPU: PACK and UNPACK at the three widths (R58 to R65). -/

namespace Sys2Proof.Machine

/-- PACK: the form of class length `len_in` and payload `val_in` (R58). -/
def pack (W : Width) (s : State) : Host.Outcome State Fault Refusal :=
  s.respond (deliver okForm (packForm W s.req.classLength s.req.valUnsigned))

/-- UNPACK: the payload and length of the form at the front of the input window (R62). -/
def unpackWindow (W : Width) (s : State) : Host.Outcome State Fault Refusal :=
  s.respond (deliver (fun a => okValue (ofUnsigned a.1) a.2) (unpackPayload W s.req.winIn s.req.avail))

/-- PACK.32 (R59). -/
def execPack32 (s : State) : Host.Outcome State Fault Refusal :=
  pack .w32 s

/-- PACK.64 (R60). -/
def execPack64 (s : State) : Host.Outcome State Fault Refusal :=
  pack .w64 s

/-- PACK.128 (R61). -/
def execPack128 (s : State) : Host.Outcome State Fault Refusal :=
  pack .w128 s

/-- UNPACK.32 (R63). -/
def execUnpack32 (s : State) : Host.Outcome State Fault Refusal :=
  unpackWindow .w32 s

/-- UNPACK.64 (R64). -/
def execUnpack64 (s : State) : Host.Outcome State Fault Refusal :=
  unpackWindow .w64 s

/-- UNPACK.128 (R65). -/
def execUnpack128 (s : State) : Host.Outcome State Fault Refusal :=
  unpackWindow .w128 s

end Sys2Proof.Machine
end

