-- ==== Sys2Proof/Machine/Zigzag.lean ====
section
/-! DEFINITION. Unit ZZU: ZZ and UNZZ at the three widths (R84 to R91). -/

namespace Sys2Proof.Machine

/-- ZZ: the zigzag image of `val_in`, zero-extended (R84). -/
def zigzagValue (W : Width) (s : State) : Host.Outcome State Fault Refusal :=
  s.respond (deliver (fun u => okValue (ofUnsigned u) 0) (zz W s.req.valSigned))

/-- UNZZ: the signed integer `val_in` is the zigzag image of, sign-extended (R88). -/
def unzigzagValue (W : Width) (s : State) : Host.Outcome State Fault Refusal :=
  s.respond (deliver (fun n => okValue (ofSigned n) 0) (unzz W s.req.valUnsigned))

/-- ZZ.32 (R85). -/
def execZz32 (s : State) : Host.Outcome State Fault Refusal :=
  zigzagValue .w32 s

/-- ZZ.64 (R86). -/
def execZz64 (s : State) : Host.Outcome State Fault Refusal :=
  zigzagValue .w64 s

/-- ZZ.128 (R87). -/
def execZz128 (s : State) : Host.Outcome State Fault Refusal :=
  zigzagValue .w128 s

/-- UNZZ.32 (R89). -/
def execUnzz32 (s : State) : Host.Outcome State Fault Refusal :=
  unzigzagValue .w32 s

/-- UNZZ.64 (R90). -/
def execUnzz64 (s : State) : Host.Outcome State Fault Refusal :=
  unzigzagValue .w64 s

/-- UNZZ.128 (R91). -/
def execUnzz128 (s : State) : Host.Outcome State Fault Refusal :=
  unzigzagValue .w128 s

end Sys2Proof.Machine
end

