-- ==== Sys2Proof/Machine/Dispatch.lean ====
section
/-! DEFINITION. One arm per constructor of Instr: the 27 operations of R31, and the 27 first-byte rows of R36. -/

namespace Sys2Proof.Machine

def exec (i : Instr) (s : State) : Host.Outcome State Fault Refusal :=
  match i with
  | .encU32 => Sys2Proof.Machine.execEncU32 s
  | .encS32 => Sys2Proof.Machine.execEncS32 s
  | .decU32 => Sys2Proof.Machine.execDecU32 s
  | .decS32 => Sys2Proof.Machine.execDecS32 s
  | .peek32 => Sys2Proof.Machine.execPeek32 s
  | .zz32 => Sys2Proof.Machine.execZz32 s
  | .unzz32 => Sys2Proof.Machine.execUnzz32 s
  | .pack32 => Sys2Proof.Machine.execPack32 s
  | .unpack32 => Sys2Proof.Machine.execUnpack32 s
  | .encU64 => Sys2Proof.Machine.execEncU64 s
  | .encS64 => Sys2Proof.Machine.execEncS64 s
  | .decU64 => Sys2Proof.Machine.execDecU64 s
  | .decS64 => Sys2Proof.Machine.execDecS64 s
  | .peek64 => Sys2Proof.Machine.execPeek64 s
  | .zz64 => Sys2Proof.Machine.execZz64 s
  | .unzz64 => Sys2Proof.Machine.execUnzz64 s
  | .pack64 => Sys2Proof.Machine.execPack64 s
  | .unpack64 => Sys2Proof.Machine.execUnpack64 s
  | .encU128 => Sys2Proof.Machine.execEncU128 s
  | .encS128 => Sys2Proof.Machine.execEncS128 s
  | .decU128 => Sys2Proof.Machine.execDecU128 s
  | .decS128 => Sys2Proof.Machine.execDecS128 s
  | .peek128 => Sys2Proof.Machine.execPeek128 s
  | .zz128 => Sys2Proof.Machine.execZz128 s
  | .unzz128 => Sys2Proof.Machine.execUnzz128 s
  | .pack128 => Sys2Proof.Machine.execPack128 s
  | .unpack128 => Sys2Proof.Machine.execUnpack128 s
  | .byte0W32Z0 b0 => Sys2Proof.Machine.execByte0W32Z0 b0 s
  | .byte0W32Z1 b0 => Sys2Proof.Machine.execByte0W32Z1 b0 s
  | .byte0W32Z2 b0 => Sys2Proof.Machine.execByte0W32Z2 b0 s
  | .byte0W32Z3 b0 => Sys2Proof.Machine.execByte0W32Z3 b0 s
  | .byte0W32Z4 b0 => Sys2Proof.Machine.execByte0W32Z4 b0 s
  | .byte0W32Z5 b0 => Sys2Proof.Machine.execByte0W32Z5 b0 s
  | .byte0W32Z6 b0 => Sys2Proof.Machine.execByte0W32Z6 b0 s
  | .byte0W32Z7 b0 => Sys2Proof.Machine.execByte0W32Z7 b0 s
  | .byte0W32Z8 b0 => Sys2Proof.Machine.execByte0W32Z8 b0 s
  | .byte0W64Z0 b0 => Sys2Proof.Machine.execByte0W64Z0 b0 s
  | .byte0W64Z1 b0 => Sys2Proof.Machine.execByte0W64Z1 b0 s
  | .byte0W64Z2 b0 => Sys2Proof.Machine.execByte0W64Z2 b0 s
  | .byte0W64Z3 b0 => Sys2Proof.Machine.execByte0W64Z3 b0 s
  | .byte0W64Z4 b0 => Sys2Proof.Machine.execByte0W64Z4 b0 s
  | .byte0W64Z5 b0 => Sys2Proof.Machine.execByte0W64Z5 b0 s
  | .byte0W64Z6 b0 => Sys2Proof.Machine.execByte0W64Z6 b0 s
  | .byte0W64Z7 b0 => Sys2Proof.Machine.execByte0W64Z7 b0 s
  | .byte0W64Z8 b0 => Sys2Proof.Machine.execByte0W64Z8 b0 s
  | .byte0W128Z0 b0 => Sys2Proof.Machine.execByte0W128Z0 b0 s
  | .byte0W128Z1 b0 => Sys2Proof.Machine.execByte0W128Z1 b0 s
  | .byte0W128Z2 b0 => Sys2Proof.Machine.execByte0W128Z2 b0 s
  | .byte0W128Z3 b0 => Sys2Proof.Machine.execByte0W128Z3 b0 s
  | .byte0W128Z4 b0 => Sys2Proof.Machine.execByte0W128Z4 b0 s
  | .byte0W128Z5 b0 => Sys2Proof.Machine.execByte0W128Z5 b0 s
  | .byte0W128Z6 b0 => Sys2Proof.Machine.execByte0W128Z6 b0 s
  | .byte0W128Z7 b0 => Sys2Proof.Machine.execByte0W128Z7 b0 s
  | .byte0W128Z8 b0 => Sys2Proof.Machine.execByte0W128Z8 b0 s

end Sys2Proof.Machine
end

