-- ==== Sys2Proof/Machine/Step.lean ====
section
/-! DEFINITION. One step is one transaction (R12, R128): the command word on the port is decoded, and the operation it
selects turns the request into the response. Between steps the outputs follow the inputs: presenting a request already
puts `F` of it on the outputs (R18, R120). -/

namespace Sys2Proof.Machine

/-- One transaction. A reserved command word is refused: the spec defines no response for it (R32, item U1). -/
def step (s : State) : Host.Outcome State Fault Refusal :=
  match decode s.req.cmd with
  | .ok i => exec i s
  | .error why => .refused (.reservedCommand why)

/-- `F` of R12: the response to a request, none for a reserved command word (R32). A step reads nothing of the response
ports, so the response standing on them here is of no account. -/
def Request.response (q : Request) : Option Response :=
  match step ⟨q, Response.atReset⟩ with
  | .next t => some t.resp
  | .fault _ => none
  | .refused _ => none

/-- The host presents a new request (R122). The block has no clock: its outputs are `F` of its inputs at all times
(R12, R18, R120), so they are `F` of the new request at once. For a reserved command word the spec gives no response;
the ports are left as they stand, and the step refuses (log entry 1). -/
def State.present (s : State) (q : Request) : State :=
  { req := q, resp := q.response.getD s.resp }

/-- The command word on its port is `w`, every other request port as it was, and the outputs follow. There is no stored program (R11, R29): the
"fetch" is the command port, which the host drives with each request (log entry 6). -/
def State.withFetchWord (s : State) (nbits w : Nat) : State :=
  s.present { s.req with cmd := BitVec.ofNat 8 (w % 2 ^ nbits) }

end Sys2Proof.Machine
end

