-- ==== Sys2Proof/Safety.lean ====
section
/-! DEFINITION. The terms the statements use: what it is for an operation to answer a given response, the byte layouts
as the integer formulas of R38 and R39, the arithmetic reading of the zigzag transform, and what a response of each
operation may look like (R14 to R16, R109). -/

namespace Sys2Proof.Safety

open Sys2Proof.Machine

/-! ## What an operation answers -/

/-- The operation completes with the response `r`, and the request ports are as they were (R12, R122). -/
def Answers (i : Instr) (s : State) (r : Response) : Prop :=
  exec i s = .next { s with resp := r }

/-- The operation raises an error: its status, and every other output zero (R106). -/
def Raises (i : Instr) (s : State) (k : ErrorKind) : Prop :=
  Answers i s { status := .error k, valOut := 0, lenOut := 0, winOut := Window.zero }

/-- The operation succeeds with a value and a byte count, and writes no form (R14, R16). -/
def Returns (i : Instr) (s : State) (v : Value) (L : Nat) : Prop :=
  Answers i s { status := .ok, valOut := v, lenOut := BitVec.ofNat 5 L, winOut := Window.zero }

/-- The operation succeeds with an encoded form of `L` bytes, byte `k` being `form k`; every other byte of the output
window is 0x00 and `val_out` is 0 (R16, R24). -/
def Writes (i : Instr) (s : State) (L : Nat) (form : Nat → Nat) : Prop :=
  ∃ r : Response, Answers i s r ∧ r.status = .ok ∧ r.valOut = 0 ∧ r.lenOut.toNat = L ∧
    (∀ k, k < L → (r.winOut.byte k).toNat = form k) ∧ (∀ k, L ≤ k → k < 18 → r.winOut.byte k = 0)

/-- The operation answers two states with one and the same response. -/
def SameResponse (i : Instr) (s s' : State) : Prop :=
  ∃ r, Answers i s r ∧ Answers i s' r

/-! ## The layouts, as integers -/

/-- Byte `k` of the marker form of class `L` and payload `P` (R38). -/
def markerByte (L P k : Nat) : Nat :=
  if k = 0 then 2 ^ (8 - L) + P % 2 ^ (8 - L) else P / 2 ^ (8 - L + 8 * (k - 1)) % 256

/-- Byte `k` of the overflow form of payload `Q` (R39). -/
def overflowByte (Q k : Nat) : Nat :=
  if k = 0 then 0 else Q / 2 ^ (8 * (k - 1)) % 256

/-- The payload of a marker form of length `L` at the front of a window (R38, the inverse formula). -/
def markerPayload (L : Nat) (win : Window) : Nat :=
  (win.byte 0).toNat % 2 ^ (8 - L) + ∑ k ∈ Finset.Icc 1 (L - 1), (win.byte k).toNat * 2 ^ (8 - L + 8 * (k - 1))

/-- The payload of an overflow form of length `L` at the front of a window (R39, the inverse formula). -/
def overflowPayload (L : Nat) (win : Window) : Nat :=
  ∑ k ∈ Finset.Icc 1 (L - 1), (win.byte k).toNat * 2 ^ (8 * (k - 1))

/-- Byte 0 announces a marker form of length `L`: it lies in `2^(8-L) .. 2^(9-L) - 1`, that is, it has exactly `L - 1`
leading zero bits (R36). -/
def MarkerPrefix (L : Nat) (b0 : Byte) : Prop :=
  1 ≤ L ∧ L ≤ 8 ∧ 2 ^ (8 - L) ≤ b0.toNat ∧ b0.toNat < 2 ^ (9 - L)

/-- A value of width `W` lies in the class of length `L`: a marker class `base(L) .. base(L+1) - 1` for `L` in
1 .. NMARK(W), or the overflow class `OB(W) .. 2^W - 1` of length `M(W)` (R34). -/
def InClass (W : Width) (v L : Nat) : Prop :=
  (1 ≤ L ∧ L ≤ nmark W ∧ base L ≤ v ∧ v < base (L + 1)) ∨ (L = maxBytes W ∧ ovfBase W ≤ v ∧ v ≤ 2 ^ W.bits - 1)

/-- Two windows agree on the first `n` bytes. -/
def SamePrefix (n : Nat) (w w' : Window) : Prop :=
  ∀ k, k < n → w.byte k = w'.byte k

/-! ## The zigzag transform, as integers (R81, R82) -/

/-- `2n` for `n >= 0`, `-2n - 1` for `n < 0`. -/
def zigzagInt (n : Int) : Int :=
  if 0 ≤ n then 2 * n else -2 * n - 1

/-- `u / 2` for an even `u`, `-(u + 1) / 2` for an odd one. -/
def unzigzagInt (u : Nat) : Int :=
  if u % 2 = 0 then (u / 2 : Nat) else -((u + 1) / 2 : Nat)

/-- The width-select field `wsel` of a width (R30). -/
def widthSelect : Width → Nat
  | .w32 => 0
  | .w64 => 1
  | .w128 => 2

/-- The command word `wsel * 16 + sgn * 8 + op` (R30). -/
def commandWord (W : Width) (sgn op : Nat) : Byte :=
  BitVec.ofNat 8 (widthSelect W * 16 + sgn * 8 + op)

/-- The state with another value operand, everything else as it was. -/
def withValue (s : State) (v : Value) : State :=
  { s with req := { s.req with valIn := v } }

/-- The state with another class length and payload operand, everything else as it was. -/
def withClass (s : State) (L : Count) (P : Value) : State :=
  { s with req := { s.req with lenIn := L, valIn := P } }

/-- The state with another count of valid bytes, everything else as it was. -/
def withAvail (s : State) (n : Count) : State :=
  { s with req := { s.req with availIn := n } }

/-! ## What a response may look like -/

/-- The statuses some request makes an operation report (R109); a `byte0` row reports the one its row gives (R36). -/
def mayReport (i : Instr) (st : Status) : Bool :=
  match i, st with
  | .encU32, .ok | .encU32, .error .outOfRange | .encU64, .ok | .encU64, .error .outOfRange => true
  | .encS32, .ok | .encS32, .error .outOfRange | .encS64, .ok | .encS64, .error .outOfRange => true
  | .encU128, .ok | .encS128, .ok => true
  | .decU32, _ | .decS32, _ => true
  | .decU64, .ok | .decU64, .error .outOfRange | .decU64, .error .truncatedInput => true
  | .decS64, .ok | .decS64, .error .outOfRange | .decS64, .error .truncatedInput => true
  | .decU128, .ok | .decU128, .error .outOfRange | .decU128, .error .truncatedInput => true
  | .decS128, .ok | .decS128, .error .outOfRange | .decS128, .error .truncatedInput => true
  | .peek32, .ok | .peek32, .error .invalidPrefix | .peek64, .ok | .peek128, .ok => true
  | .zz32, .ok | .zz32, .error .outOfRange | .zz64, .ok | .zz64, .error .outOfRange | .zz128, .ok => true
  | .unzz32, .ok | .unzz32, .error .outOfRange | .unzz64, .ok | .unzz64, .error .outOfRange | .unzz128, .ok => true
  | .pack32, .ok | .pack32, .error .outOfRange | .pack32, .error .invalidPrefix => true
  | .pack64, .ok | .pack64, .error .outOfRange | .pack64, .error .invalidPrefix => true
  | .pack128, .ok | .pack128, .error .outOfRange | .pack128, .error .invalidPrefix => true
  | .unpack32, .ok | .unpack32, .error .truncatedInput | .unpack32, .error .invalidPrefix => true
  | .unpack64, .ok | .unpack64, .error .truncatedInput => true
  | .unpack128, .ok | .unpack128, .error .outOfRange | .unpack128, .error .truncatedInput => true
  | .byte0W32Z5 _, st | .byte0W32Z6 _, st | .byte0W32Z7 _, st => st == .error .invalidPrefix
  | i, .ok => !i.isCommand
  | _, _ => false

/-- The operations that write `val_out`: DEC, ZZ, UNZZ, UNPACK (R14). -/
def writesValue (i : Instr) : Prop :=
  ∃ W, i = .decU W ∨ i = .decS W ∨ i = .zz W ∨ i = .unzz W ∨ i = .unpack W

/-- The operations that do not write `len_out`: ZZ and UNZZ (R14). -/
def writesNoLength (i : Instr) : Prop :=
  ∃ W, i = .zz W ∨ i = .unzz W

/-- The operations that write `win_out`: ENC and PACK (R14). -/
def writesWindow (i : Instr) : Prop :=
  ∃ W, i = .encU W ∨ i = .encS W ∨ i = .pack W

/-- The ports an operation does not write are zero, as are the bytes past the form; a failing response carries
nothing (R16, R106). -/
def Clean (i : Instr) (r : Response) : Prop :=
  (¬ writesValue i → r.valOut = 0) ∧ (writesNoLength i → r.lenOut = 0) ∧ (¬ writesWindow i → r.winOut = Window.zero) ∧
    (∀ k, r.lenOut.toNat ≤ k → k < 18 → r.winOut.byte k = 0) ∧
    (r.status ≠ .ok → r.valOut = 0 ∧ r.lenOut = 0 ∧ r.winOut = Window.zero)

/-- A length that some form of width `W` has: 1 .. 5, 1 .. 9, or 1 .. 8 and 18 (R34, R36). -/
def IsLength (W : Width) (L : Nat) : Prop :=
  1 ≤ L ∧ L ≤ maxBytes W ∧ (L ≤ 8 ∨ L = maxBytes W)

/-- A response the rules allow the operation: a status of R109's matrix, the ports of R16, and on success a value in
the range of the result (R15) and a length that exists at the width (R34). UNPACK's result is a payload, not a value of
the type, so no range is asked of it (R62). -/
def Allowed (i : Instr) (r : Response) : Prop :=
  mayReport i r.status = true ∧ Clean i r ∧
    (r.status = .ok → ¬ writesNoLength i → IsLength i.width r.lenOut.toNat) ∧
    ((i = .decU i.width ∨ i = .zz i.width) → inRangeU i.width r.valOut.toNat) ∧
    ((i = .decS i.width ∨ i = .unzz i.width) → inRangeS i.width r.valOut.toInt)

/-- The invariant of the machine: the response on the outputs is one the rules allow the command presented. -/
def ResponseAllowed (s : State) : Prop :=
  ∀ i, decode s.req.cmd = .ok i → Allowed i s.resp

/-- The outputs are `F` of the inputs wherever `F` gives a response (R12, R18, R120). -/
def OutputsFollowInputs (s : State) : Prop :=
  ∀ r, s.req.response = some r → s.resp = r

/-- The outputs are `F` of the inputs: one more transaction changes nothing (R12, R18, R120). -/
def Settled (s : State) : Prop :=
  step s = .next s

end Sys2Proof.Safety
end

