-- ==== Sys2Proof/Certificates/Slice0/Obligations.lean ====
section
/-! DEFINITION. The statements for the provers, in the order of the spec's files: command words and rows, the
analyzer, the packer and unpacker, the unsigned and the signed codec, the zigzag transform, errors, and the machine as
a whole. A statement about ENC, DEC, PEEK, ZZ, UNZZ, PACK or UNPACK "at W" is about the three rows of that family.
Byte-exact claims about forms of more than one byte rest on the layout the spec decided (D10, D11; log entry 10), those
about width 128 on D12 (log entry 11), those about the last class of width 32 on D13 (log entry 12). -/

open Sys2Proof Sys2Proof.Machine Sys2Proof.Safety

/-! ## Command words and rows (30_encoding.md) -/

/-- R31: the command word of each operation at each width, `wsel * 16 + sgn * 8 + op`, decodes to it; the operations
whose `sgn` is "0 only" are reserved with `sgn = 1`, and operation code 7 with either. -/
def Obligations.CommandWordsSelectOperations : Prop :=
  ∀ W : Width,
    decode (commandWord W 0 0) = .ok (.encU W) ∧ decode (commandWord W 1 0) = .ok (.encS W) ∧
    decode (commandWord W 0 1) = .ok (.decU W) ∧ decode (commandWord W 1 1) = .ok (.decS W) ∧
    decode (commandWord W 0 2) = .ok (.peek W) ∧ decode (commandWord W 0 3) = .ok (.zz W) ∧
    decode (commandWord W 0 4) = .ok (.unzz W) ∧ decode (commandWord W 0 5) = .ok (.pack W) ∧
    decode (commandWord W 0 6) = .ok (.unpack W) ∧
    (∀ op, 2 ≤ op → op ≤ 6 → ∃ why, decode (commandWord W 1 op) = .error why) ∧
    ∀ sgn, sgn ≤ 1 → ∃ why, decode (commandWord W sgn 7) = .error why

/-- R32: the step refuses a command word exactly when one of the four conditions holds; those are exactly the words
that are no command's encoding, and there are 229 of them. -/
def Obligations.ReservedCommandWordsRefused : Prop :=
  (∀ s : State,
    ((∃ why, step s = .refused (.reservedCommand why)) ↔
      (s.req.cmd.toNat / 64 ≠ 0 ∨ s.req.cmd.toNat / 16 % 4 = 3 ∨ s.req.cmd.toNat % 8 = 7 ∨
        (s.req.cmd.toNat / 8 % 2 = 1 ∧ 2 ≤ s.req.cmd.toNat % 8 ∧ s.req.cmd.toNat % 8 ≤ 6))) ∧
    ((∃ why, step s = .refused (.reservedCommand why)) ↔ ∀ i : Instr, i.isCommand = true → encode i ≠ s.req.cmd)) ∧
  ((List.range 256).filter fun n => (decode (BitVec.ofNat 8 n)).toOption.isNone).length = 229

/-- Decoding and encoding agree for every row of the table: a well-formed row's encoding decodes to it (by the command
decoder for the `cmd` rows, by the first-byte decoder of its width for the `byte0` rows); what a command word decodes
to is a command with that very word; and every first byte belongs, at each width, to a well-formed row of that width
and to no other (R30, R31, R36, R45). -/
def Obligations.EncodingsRoundTrip : Prop :=
  (∀ i : Instr, i.wf = true → decodeAs i (encode i) = .ok i) ∧
  (∀ (cmd : Byte) (i : Instr), decode cmd = .ok i → i.isCommand = true ∧ encode i = cmd) ∧
  (∀ (W : Width) (b0 : Byte), (decodeByte0 W b0).wf = true ∧ (decodeByte0 W b0).isCommand = false ∧
    (decodeByte0 W b0).width = W ∧ encode (decodeByte0 W b0) = b0 ∧
    ∀ j : Instr, j.wf = true → j.isCommand = false → j.width = W → encode j = b0 → j = decodeByte0 W b0)

/-- A step runs the decoded instruction: when the command word on the port decodes to `i`, the step is `exec i` of the
same state, and a word put on the command port (`withFetchWord`) is the one the step decodes. There is nothing around
it, no program counter to move (R11, R12). -/
def Obligations.StepRunsDecodedInstruction : Prop :=
  (∀ (s : State) (i : Instr), decode s.req.cmd = .ok i → step s = exec i s) ∧
  (∀ (s : State) (w : Nat) (i : Instr), decodeTableWord 8 w = some i →
    step (s.withFetchWord 8 w) = exec i (s.withFetchWord 8 w))

/-- Command words written out bit by bit from R30's fields decode to their operations, one word of each family, and
first bytes written out from R36's patterns to their rows. -/
def Obligations.WrittenOutWordsDecode : Prop :=
  decode 0b00_01_0_000#8 = .ok .encU64 ∧ decode 0b00_10_1_000#8 = .ok .encS128 ∧ decode 0b00_00_0_001#8 = .ok .decU32 ∧
  decode 0b00_01_1_001#8 = .ok .decS64 ∧ decode 0b00_10_0_010#8 = .ok .peek128 ∧ decode 0b00_00_0_011#8 = .ok .zz32 ∧
  decode 0b00_01_0_100#8 = .ok .unzz64 ∧ decode 0b00_10_0_101#8 = .ok .pack128 ∧ decode 0b00_00_0_110#8 = .ok .unpack32 ∧
  decodeByte0 .w32 0b00001_101#8 = .byte0W32Z4 0x0D ∧ decodeByte0 .w64 0b001_10110#8 = .byte0W64Z2 0x36 ∧
  decodeByte0 .w128 0b00000000#8 = .byte0W128Z8 0x00

/-! ## The length-prefix analyzer (30_encoding.md, 40_prefix_analyzer.md) -/

/-- What the 27 `byte0` rows answer, as R36's table has them. That a row answers with a response at all is the model's
choice (log entry 5); the status and length are R36's. -/
def Obligations.FirstByteRowsAnswer : Prop :=
  ∀ (s : State) (b : Byte),
    Returns (.byte0W32Z0 b) s 0 1 ∧ Returns (.byte0W32Z1 b) s 0 2 ∧ Returns (.byte0W32Z2 b) s 0 3 ∧
    Returns (.byte0W32Z3 b) s 0 4 ∧ Returns (.byte0W32Z4 b) s 0 5 ∧ Raises (.byte0W32Z5 b) s .invalidPrefix ∧
    Raises (.byte0W32Z6 b) s .invalidPrefix ∧ Raises (.byte0W32Z7 b) s .invalidPrefix ∧ Returns (.byte0W32Z8 b) s 0 5 ∧
    Returns (.byte0W64Z0 b) s 0 1 ∧ Returns (.byte0W64Z1 b) s 0 2 ∧ Returns (.byte0W64Z2 b) s 0 3 ∧
    Returns (.byte0W64Z3 b) s 0 4 ∧ Returns (.byte0W64Z4 b) s 0 5 ∧ Returns (.byte0W64Z5 b) s 0 6 ∧
    Returns (.byte0W64Z6 b) s 0 7 ∧ Returns (.byte0W64Z7 b) s 0 8 ∧ Returns (.byte0W64Z8 b) s 0 9 ∧
    Returns (.byte0W128Z0 b) s 0 1 ∧ Returns (.byte0W128Z1 b) s 0 2 ∧ Returns (.byte0W128Z2 b) s 0 3 ∧
    Returns (.byte0W128Z3 b) s 0 4 ∧ Returns (.byte0W128Z4 b) s 0 5 ∧ Returns (.byte0W128Z5 b) s 0 6 ∧
    Returns (.byte0W128Z6 b) s 0 7 ∧ Returns (.byte0W128Z7 b) s 0 8 ∧ Returns (.byte0W128Z8 b) s 0 18

/-- The table of R36 and the algorithm of R50 agree: PEEK of a width answers what the row its first byte decodes to
answers, and what every well-formed row of that width with that byte answers. That a `byte0` row, which is no operation
(R45), answers as PEEK does is the model's choice (log entry 5); the statement says that the two accounts, written
apart, give one response. -/
def Obligations.FirstByteRowsAgreeWithPeek : Prop :=
  ∀ (W : Width) (s : State),
    exec (.peek W) s = exec (decodeByte0 W (s.req.winIn.byte 0)) s ∧
    ∀ i : Instr, i.wf = true → i.isCommand = false → i.width = W → encode i = s.req.winIn.byte 0 →
      exec i s = exec (.peek W) s

/-- R50: the length and form a first byte announces. -/
def Obligations.AnalyzerReadsLengthFromFirstByte : Prop :=
  ∀ (W : Width) (b0 : Byte),
    (b0 = 0 → lpa W b0 = .ok (maxBytes W, .overflow)) ∧
    (∀ L, MarkerPrefix L b0 → L ≤ maxBytes W → lpa W b0 = .ok (L, .marker)) ∧
    (∀ L, MarkerPrefix L b0 → maxBytes W < L → lpa W b0 = .error .invalidPrefix) ∧
    (b0 = 0 ∨ ∃ L, MarkerPrefix L b0) ∧
    (∀ L f, lpa W b0 = .ok (L, f) → 1 ≤ L ∧ L ≤ maxBytes W)

/-- R52, R53, R54: the command word and the length PEEK reports for each range of first bytes, whatever the other
ports hold. -/
def Obligations.PeekReportsLength : Prop :=
  decode 0x02 = .ok .peek32 ∧ decode 0x12 = .ok .peek64 ∧ decode 0x22 = .ok .peek128 ∧
  ∀ (s : State) (b : Nat), (s.req.winIn.byte 0).toNat = b →
    (0x80 ≤ b → Returns .peek32 s 0 1 ∧ Returns .peek64 s 0 1 ∧ Returns .peek128 s 0 1) ∧
    (0x40 ≤ b → b ≤ 0x7F → Returns .peek32 s 0 2 ∧ Returns .peek64 s 0 2 ∧ Returns .peek128 s 0 2) ∧
    (0x20 ≤ b → b ≤ 0x3F → Returns .peek32 s 0 3 ∧ Returns .peek64 s 0 3 ∧ Returns .peek128 s 0 3) ∧
    (0x10 ≤ b → b ≤ 0x1F → Returns .peek32 s 0 4 ∧ Returns .peek64 s 0 4 ∧ Returns .peek128 s 0 4) ∧
    (0x08 ≤ b → b ≤ 0x0F → Returns .peek32 s 0 5 ∧ Returns .peek64 s 0 5 ∧ Returns .peek128 s 0 5) ∧
    (0x04 ≤ b → b ≤ 0x07 → Raises .peek32 s .invalidPrefix ∧ Returns .peek64 s 0 6 ∧ Returns .peek128 s 0 6) ∧
    (0x02 ≤ b → b ≤ 0x03 → Raises .peek32 s .invalidPrefix ∧ Returns .peek64 s 0 7 ∧ Returns .peek128 s 0 7) ∧
    (b = 0x01 → Raises .peek32 s .invalidPrefix ∧ Returns .peek64 s 0 8 ∧ Returns .peek128 s 0 8) ∧
    (b = 0x00 → Returns .peek32 s 0 5 ∧ Returns .peek64 s 0 9 ∧ Returns .peek128 s 0 18)

/-! ## The packer and the unpacker (41_payload_pack.md) -/

/-- R55: PACK of a marker class writes the bytes of `pack_marker`, and the leading zero count of the first is `L - 1`. -/
def Obligations.PackWritesMarkerForm : Prop :=
  ∀ (W : Width) (s : State) (L P : Nat), s.req.lenIn.toNat = L → s.req.valIn.toNat = P →
    1 ≤ L → L ≤ nmark W → P < 2 ^ (7 * L) →
    Writes (.pack W) s L (markerByte L P) ∧
    ∀ t, exec (.pack W) s = .next t → clz8 (t.resp.winOut.byte 0) = L - 1

/-- R56: PACK of the overflow class writes the bytes of `pack_ovf`. -/
def Obligations.PackWritesOverflowForm : Prop :=
  ∀ (W : Width) (s : State) (Q : Nat), s.req.lenIn.toNat = maxBytes W → s.req.valIn.toNat = Q →
    Q < 2 ^ (8 * (maxBytes W - 1)) → Writes (.pack W) s (maxBytes W) (overflowByte Q)

/-- PACK's two errors, the length test first: no class of the length, then a payload that does not fit (R58, R104). -/
def Obligations.PackRejects : Prop :=
  ∀ (W : Width) (s : State) (L P : Nat), s.req.lenIn.toNat = L → s.req.valIn.toNat = P →
    (¬ (1 ≤ L ∧ L ≤ nmark W) → L ≠ maxBytes W → Raises (.pack W) s .invalidPrefix) ∧
    (1 ≤ L → L ≤ nmark W → 2 ^ (7 * L) ≤ P → Raises (.pack W) s .outOfRange) ∧
    (L = maxBytes W → 2 ^ (8 * (maxBytes W - 1)) ≤ P → Raises (.pack W) s .outOfRange)

/-- R59, R60, R61: which class lengths and payloads PACK accepts at each width, in which form (the overflow form is the
one whose first byte is 0x00), and `byte[17]` of the width-128 overflow form. -/
def Obligations.PackAcceptsClassLengths : Prop :=
  decode 0x05 = .ok .pack32 ∧ decode 0x15 = .ok .pack64 ∧ decode 0x25 = .ok .pack128 ∧
  ∀ (s t32 t64 t128 : State) (L P : Nat), s.req.lenIn.toNat = L → s.req.valIn.toNat = P →
    exec .pack32 s = .next t32 → exec .pack64 s = .next t64 → exec .pack128 s = .next t128 →
    (t32.resp.status = .ok ↔ (1 ≤ L ∧ L ≤ 4 ∧ P < 2 ^ (7 * L)) ∨ (L = 5 ∧ P < 2 ^ 32)) ∧
    (t32.resp.status = .error .invalidPrefix ↔ L = 0 ∨ 6 ≤ L) ∧
    (t64.resp.status = .ok ↔ (1 ≤ L ∧ L ≤ 8 ∧ P < 2 ^ (7 * L)) ∨ (L = 9 ∧ P < 2 ^ 64)) ∧
    (t64.resp.status = .error .invalidPrefix ↔ L = 0 ∨ 10 ≤ L) ∧
    (t128.resp.status = .ok ↔ (1 ≤ L ∧ L ≤ 8 ∧ P < 2 ^ (7 * L)) ∨ L = 18) ∧
    (t128.resp.status = .error .invalidPrefix ↔ L = 0 ∨ (9 ≤ L ∧ L ≤ 17) ∨ 19 ≤ L) ∧
    (t32.resp.status = .ok → t32.resp.lenOut.toNat = L ∧ (t32.resp.winOut.byte 0 = 0x00 ↔ L = 5)) ∧
    (t64.resp.status = .ok → t64.resp.lenOut.toNat = L ∧ (t64.resp.winOut.byte 0 = 0x00 ↔ L = 9)) ∧
    (t128.resp.status = .ok → t128.resp.lenOut.toNat = L ∧ (t128.resp.winOut.byte 0 = 0x00 ↔ L = 18)) ∧
    t128.resp.winOut.byte 17 = 0x00

/-- UNPACK of a window that holds a whole form delivers its payload and length (R57, R62); an overflow payload of
`2^128` or more does not fit and is refused. -/
def Obligations.UnpackReadsForm : Prop :=
  ∀ (W : Width) (s : State),
    (∀ L, MarkerPrefix L (s.req.winIn.byte 0) → L ≤ maxBytes W → L ≤ min s.req.availIn.toNat 18 →
      markerPayload L s.req.winIn < 2 ^ (7 * L) ∧
      Returns (.unpack W) s (BitVec.ofNat 128 (markerPayload L s.req.winIn)) L) ∧
    (s.req.winIn.byte 0 = 0 → maxBytes W ≤ min s.req.availIn.toNat 18 →
      (overflowPayload (maxBytes W) s.req.winIn < 2 ^ 128 →
        Returns (.unpack W) s (BitVec.ofNat 128 (overflowPayload (maxBytes W) s.req.winIn)) (maxBytes W)) ∧
      (2 ^ 128 ≤ overflowPayload (maxBytes W) s.req.winIn → W = .w128 ∧ Raises (.unpack W) s .outOfRange))

/-- The first three tests of UNPACK and of both decoders, in their order: empty, prefix, truncation (R57, R104). -/
def Obligations.WindowTestsInOrder : Prop :=
  ∀ (W : Width) (s : State) (i : Instr), i = .unpack W ∨ i = .decU W ∨ i = .decS W →
    (s.req.availIn = 0 → Raises i s .truncatedInput) ∧
    (s.req.availIn ≠ 0 → ∀ L, MarkerPrefix L (s.req.winIn.byte 0) → maxBytes W < L → Raises i s .invalidPrefix) ∧
    (s.req.availIn ≠ 0 → ∀ L, MarkerPrefix L (s.req.winIn.byte 0) → L ≤ maxBytes W → min s.req.availIn.toNat 18 < L →
      Raises i s .truncatedInput) ∧
    (s.req.availIn ≠ 0 → s.req.winIn.byte 0 = 0 → min s.req.availIn.toNat 18 < maxBytes W → Raises i s .truncatedInput)

/-- What PACK accepts, UNPACK takes apart again, whatever follows the form in the window (R66, first half). -/
def Obligations.UnpackInvertsPack : Prop :=
  ∀ (W : Width) (s t u : State), exec (.pack W) s = .next t → t.resp.status = .ok →
    SamePrefix t.resp.lenOut.toNat u.req.winIn t.resp.winOut → t.resp.lenOut.toNat ≤ min u.req.availIn.toNat 18 →
    Returns (.unpack W) u s.req.valIn s.req.lenIn.toNat

/-- What UNPACK takes apart, PACK puts together again, except at width 32 for the marker form of length 5, whose
payload PACK lays out as the overflow form or refuses (R66, second half). -/
def Obligations.PackInvertsUnpackButForOneForm : Prop :=
  ∀ (W : Width) (u t s : State), exec (.unpack W) u = .next t → t.resp.status = .ok →
    s.req.valIn = t.resp.valOut → s.req.lenIn = t.resp.lenOut →
    (¬ (W = .w32 ∧ MarkerPrefix 5 (u.req.winIn.byte 0)) →
      Writes (.pack W) s t.resp.lenOut.toNat fun k => (u.req.winIn.byte k).toNat) ∧
    (W = .w32 → MarkerPrefix 5 (u.req.winIn.byte 0) → t.resp.lenOut.toNat = 5 ∧ t.resp.valOut.toNat < 2 ^ 35 ∧
      (t.resp.valOut.toNat < 2 ^ 32 → Writes (.pack W) s 5 (overflowByte t.resp.valOut.toNat)) ∧
      (2 ^ 32 ≤ t.resp.valOut.toNat → Raises (.pack W) s .outOfRange))

/-! ## The classes (00_scope.md, 30_encoding.md) and the unsigned encoder (42_encoder.md) -/

/-- R6, R7: `M`, `NMARK`, `OB` and `cbase` of each width. -/
def Obligations.WidthConstants : Prop :=
  maxBytes .w32 = 5 ∧ maxBytes .w64 = 9 ∧ maxBytes .w128 = 18 ∧ nmark .w32 = 4 ∧ nmark .w64 = 8 ∧ nmark .w128 = 8 ∧
  (∀ W, nmark W = min (maxBytes W - 1) 8 ∧ ovfBase W = base (nmark W + 1)) ∧
  ovfBase .w32 = 270549120 ∧ ovfBase .w64 = 72624976668147840 ∧ ovfBase .w128 = 72624976668147840 ∧
  ∀ W L, cbase W L = base (min L 9)

/-- R33: the thresholds, by the sum, by the recurrence, bit by bit and as printed. -/
def Obligations.Thresholds : Prop :=
  (∀ L, 1 ≤ L → base L = ∑ i ∈ Finset.Icc 1 (L - 1), 2 ^ (7 * i) ∧ base (L + 1) = base L + 2 ^ (7 * L) ∧
    ∀ k, (base L).testBit k = true ↔ k % 7 = 0 ∧ 7 ≤ k ∧ k ≤ 7 * (L - 1)) ∧
  base 1 = 0 ∧ base 2 = 128 ∧ base 3 = 16512 ∧ base 4 = 2113664 ∧ base 5 = 270549120 ∧ base 6 = 34630287488 ∧
  base 7 = 4432676798592 ∧ base 8 = 567382630219904 ∧ base 9 = 72624976668147840

/-- The classes of a width are disjoint and cover its values: every value in range lies in exactly one class (R34). -/
def Obligations.ClassesPartitionTheRange : Prop :=
  ∀ (W : Width) (v : Nat), (v ≤ 2 ^ W.bits - 1 → ∃! L, InClass W v L) ∧ (2 ^ W.bits - 1 < v → ∀ L, ¬ InClass W v L)

/-- R68: ENC unsigned at W. Out of range it raises `OutOfRange`, which cannot happen at width 128; in a marker class it
writes the marker form of `v - base(L)`; at or above `OB(W)` the overflow form of `v - OB(W)`; in range it never fails
and its length is that of the one class the value lies in; no other error occurs. -/
def Obligations.EncodeUnsigned : Prop :=
  ∀ (W : Width) (s : State) (v : Nat), s.req.valIn.toNat = v →
    decode (commandWord W 0 0) = .ok (.encU W) ∧
    (2 ^ W.bits - 1 < v → W ≠ .w128 ∧ Raises (.encU W) s .outOfRange) ∧
    (∀ L, 1 ≤ L → L ≤ nmark W → base L ≤ v → v < base (L + 1) →
      Writes (.encU W) s L (markerByte L (v - base L))) ∧
    (ovfBase W ≤ v → v ≤ 2 ^ W.bits - 1 → Writes (.encU W) s (maxBytes W) (overflowByte (v - ovfBase W))) ∧
    (v ≤ 2 ^ W.bits - 1 → ∃ t, exec (.encU W) s = .next t ∧ t.resp.status = .ok ∧ InClass W v t.resp.lenOut.toNat) ∧
    ∀ t, exec (.encU W) s = .next t →
      t.resp.status ≠ .error .truncatedInput ∧ t.resp.status ≠ .error .invalidPrefix

/-- R69: ENC.U32 in numbers: its command word, its lengths, its overflow form, the bound of its operand, and the first
bytes it never writes. -/
def Obligations.EncodeU32InNumbers : Prop :=
  decode 0x00 = .ok .encU32 ∧
  ∀ (s : State) (v : Nat), s.req.valIn.toNat = v →
    (4294967295 < v → Raises .encU32 s .outOfRange) ∧
    (v ≤ 4294967295 → ∃ t, exec .encU32 s = .next t ∧ t.resp.status = .ok ∧
      (v ≤ 127 → t.resp.lenOut.toNat = 1) ∧
      (128 ≤ v → v ≤ 16511 → t.resp.lenOut.toNat = 2) ∧
      (16512 ≤ v → v ≤ 2113663 → t.resp.lenOut.toNat = 3) ∧
      (2113664 ≤ v → v ≤ 270549119 → t.resp.lenOut.toNat = 4) ∧
      (270549120 ≤ v → t.resp.lenOut.toNat = 5 ∧ t.resp.winOut.byte 0 = 0x00 ∧
        ∀ k, k < 4 → (t.resp.winOut.byte (k + 1)).toNat = (v - 270549120) / 256 ^ k % 256) ∧
      ((t.resp.winOut.byte 0).toNat = 0 ∨ 0x10 ≤ (t.resp.winOut.byte 0).toNat))

/-- R72: for a value in range the length is minimal, is in `1 .. M(W)`, is what `lpa` finds in the first byte, and does
not decrease as the value grows; the encoders of two widths agree below the narrower one's overflow class and differ
above it. -/
def Obligations.EncoderLengthIsMinimalAndMonotone : Prop :=
  (∀ (W : Width) (s : State), s.req.valIn.toNat ≤ 2 ^ W.bits - 1 →
    ∃ t, exec (.encU W) s = .next t ∧ t.resp.status = .ok ∧
      InClass W s.req.valIn.toNat t.resp.lenOut.toNat ∧
      (∀ L, InClass W s.req.valIn.toNat L → t.resp.lenOut.toNat ≤ L) ∧
      1 ≤ t.resp.lenOut.toNat ∧ t.resp.lenOut.toNat ≤ maxBytes W ∧
      (∃ f, lpa W (t.resp.winOut.byte 0) = .ok (t.resp.lenOut.toNat, f)) ∧
      ∀ s' t', s.req.valIn.toNat ≤ s'.req.valIn.toNat → s'.req.valIn.toNat ≤ 2 ^ W.bits - 1 →
        exec (.encU W) s' = .next t' → t.resp.lenOut.toNat ≤ t'.resp.lenOut.toNat) ∧
  (∀ s t32 t64 t128 : State, exec .encU32 s = .next t32 → exec .encU64 s = .next t64 → exec .encU128 s = .next t128 →
    (s.req.valIn.toNat < 270549120 → t32.resp = t64.resp) ∧
    (270549120 ≤ s.req.valIn.toNat → s.req.valIn.toNat ≤ 2 ^ 32 - 1 → t32.resp ≠ t64.resp) ∧
    (s.req.valIn.toNat < 72624976668147840 → t64.resp = t128.resp) ∧
    (72624976668147840 ≤ s.req.valIn.toNat → s.req.valIn.toNat ≤ 2 ^ 64 - 1 → t64.resp ≠ t128.resp))

/-- The encoder is the class search, a subtraction and a pack: in the class of length `L` it answers what PACK answers
for `L` and `v - cbase(W, L)` (R40, R58, R68). -/
def Obligations.EncodeIsPackOfPayload : Prop :=
  ∀ (W : Width) (s : State) (L : Nat), InClass W s.req.valIn.toNat L →
    ∃ r, Answers (.encU W) s r ∧
      Answers (.pack W) (withClass s (BitVec.ofNat 5 L) (BitVec.ofNat 128 (s.req.valIn.toNat - cbase W L)))  r

/-- No canonical form is another's prefix, and two values have two forms: if the window of one starts with the form of
the other, the values are the same (R40). -/
def Obligations.CanonicalFormsArePrefixFree : Prop :=
  ∀ (W : Width) (s t s' t' : State), exec (.encU W) s = .next t → t.resp.status = .ok →
    exec (.encU W) s' = .next t' → t'.resp.status = .ok →
    SamePrefix t.resp.lenOut.toNat t.resp.winOut t'.resp.winOut →
    s.req.valIn = s'.req.valIn ∧ t.resp = t'.resp

/-! ## The unsigned decoder (43_decoder.md) -/

/-- DEC unsigned at W of a window that holds a whole form: `cbase(W, L)` plus the payload and the length, or
`OutOfRange` when that exceeds `2^W - 1` (R41, R42, R73, R74). At width 32 this includes the marker form of length 5. -/
def Obligations.DecodeUnsigned : Prop :=
  ∀ (W : Width) (s : State),
    (∀ L, MarkerPrefix L (s.req.winIn.byte 0) → L ≤ maxBytes W → L ≤ min s.req.availIn.toNat 18 →
      (cbase W L + markerPayload L s.req.winIn ≤ 2 ^ W.bits - 1 →
        Returns (.decU W) s (BitVec.ofNat 128 (cbase W L + markerPayload L s.req.winIn)) L) ∧
      (2 ^ W.bits - 1 < cbase W L + markerPayload L s.req.winIn →
        W = .w32 ∧ L = 5 ∧ Raises (.decU W) s .outOfRange)) ∧
    (s.req.winIn.byte 0 = 0 → maxBytes W ≤ min s.req.availIn.toNat 18 →
      (ovfBase W + overflowPayload (maxBytes W) s.req.winIn ≤ 2 ^ W.bits - 1 →
        Returns (.decU W) s (BitVec.ofNat 128 (ovfBase W + overflowPayload (maxBytes W) s.req.winIn)) (maxBytes W)) ∧
      (2 ^ W.bits - 1 < ovfBase W + overflowPayload (maxBytes W) s.req.winIn → Raises (.decU W) s .outOfRange))

/-- A decoded value lies in the class its length names; with width 32's marker form of length 5 this is the overflow
class (R34, R41). -/
def Obligations.DecodedValueLiesInItsClass : Prop :=
  ∀ (W : Width) (s t : State), exec (.decU W) s = .next t → t.resp.status = .ok →
    InClass W t.resp.valOut.toNat t.resp.lenOut.toNat

/-- Decoding what the encoder wrote gives the value and the length back, whatever follows the form in the window (R78,
first half). -/
def Obligations.DecodeInvertsEncodeUnsigned : Prop :=
  ∀ (W : Width) (s t u : State), exec (.encU W) s = .next t → t.resp.status = .ok →
    SamePrefix t.resp.lenOut.toNat u.req.winIn t.resp.winOut → t.resp.lenOut.toNat ≤ min u.req.availIn.toNat 18 →
    Returns (.decU W) u s.req.valIn t.resp.lenOut.toNat

/-- Encoding what the decoder read gives its bytes back, except at width 32 for the marker form of length 5 (R78,
second half). -/
def Obligations.EncodeInvertsDecodeUnsigned : Prop :=
  ∀ (W : Width) (u t s : State), exec (.decU W) u = .next t → t.resp.status = .ok →
    ¬ (W = .w32 ∧ MarkerPrefix 5 (u.req.winIn.byte 0)) → s.req.valIn = t.resp.valOut →
    Writes (.encU W) s t.resp.lenOut.toNat fun k => (u.req.winIn.byte k).toNat

/-- The decoder is injective but for width 32's marker form of length 5: two accepted forms with one value are the
same bytes (R41). -/
def Obligations.DecoderIsInjective : Prop :=
  ∀ (W : Width) (u t u' t' : State), exec (.decU W) u = .next t → t.resp.status = .ok →
    exec (.decU W) u' = .next t' → t'.resp.status = .ok →
    ¬ (W = .w32 ∧ MarkerPrefix 5 (u.req.winIn.byte 0)) → ¬ (W = .w32 ∧ MarkerPrefix 5 (u'.req.winIn.byte 0)) →
    t.resp.valOut = t'.resp.valOut →
    t.resp.lenOut = t'.resp.lenOut ∧ SamePrefix t.resp.lenOut.toNat u.req.winIn u'.req.winIn

/-- R79: when DEC succeeds, its length is the one PEEK of the same width gives on the same first byte. -/
def Obligations.PeekAgreesWithDecode : Prop :=
  ∀ (W : Width) (i : Instr) (s t u : State), i = .decU W ∨ i = .decS W → exec i s = .next t → t.resp.status = .ok →
    u.req.winIn.byte 0 = s.req.winIn.byte 0 → Returns (.peek W) u 0 t.resp.lenOut.toNat

/-- R80: too few bytes give `TruncatedInput` with nothing decoded; and what the width-32 decoder makes of a form the
width-64 encoder wrote for a value above `2^32 - 1`: in the one case where it answers `OK`, the value on `val_out` is
width 32's overflow class base plus the four bytes after the first, and is not the value encoded. -/
def Obligations.TruncationAndCrossWidthDecoding : Prop :=
  (∀ (W : Width) (s : State) (L : Nat) (f : Form), lpa W (s.req.winIn.byte 0) = .ok (L, f) →
    min s.req.availIn.toNat 18 < L → Raises (.decU W) s .truncatedInput) ∧
  (∀ (s t u : State) (v : Nat), s.req.valIn.toNat = v → exec .encU64 s = .next t → t.resp.status = .ok →
    SamePrefix t.resp.lenOut.toNat u.req.winIn t.resp.winOut → t.resp.lenOut.toNat ≤ min u.req.availIn.toNat 18 →
    (2 ^ 32 ≤ v → v < 34630287488 → Raises .decU32 u .outOfRange) ∧
    (34630287488 ≤ v → v < 72624976668147840 → Raises .decU32 u .invalidPrefix) ∧
    (72624976668147840 ≤ v → u.req.winIn.byte 0 = 0 ∧
      (0xEFDFBF7F < overflowPayload 5 t.resp.winOut → Raises .decU32 u .outOfRange) ∧
      (overflowPayload 5 t.resp.winOut ≤ 0xEFDFBF7F →
        ∃ x : Value, x ≠ s.req.valIn ∧ x.toNat = 270549120 + overflowPayload 5 t.resp.winOut ∧ x.toNat ≤ 2 ^ 32 - 1 ∧
          Returns .decU32 u x 5)))

/-- The decoder is an unpack, an addition and a range check: when DEC succeeds, UNPACK succeeds on the same window with
the same length, and the value is `cbase(W, L)` plus the payload UNPACK delivers (R42). -/
def Obligations.DecodeIsUnpackPlusBase : Prop :=
  ∀ (W : Width) (s t : State), exec (.decU W) s = .next t → t.resp.status = .ok →
    ∃ u, exec (.unpack W) s = .next u ∧ u.resp.status = .ok ∧ u.resp.lenOut = t.resp.lenOut ∧
      t.resp.valOut.toNat = cbase W u.resp.lenOut.toNat + u.resp.valOut.toNat

/-! ## The zigzag transform (44_zigzag.md) -/

/-- R84: ZZ at W delivers the zigzag image of the operand, zero-extended, or `OutOfRange`, which cannot happen at
width 128. -/
def Obligations.ZigzagOperation : Prop :=
  ∀ (W : Width) (s : State) (n : Int), s.req.valIn.toInt = n →
    decode (commandWord W 0 3) = .ok (.zz W) ∧
    (-2 ^ (W.bits - 1) ≤ n → n ≤ 2 ^ (W.bits - 1) - 1 →
      ∃ u : Nat, (u : Int) = zigzagInt n ∧ u ≤ 2 ^ W.bits - 1 ∧ Returns (.zz W) s (BitVec.ofNat 128 u) 0) ∧
    (n < -2 ^ (W.bits - 1) ∨ 2 ^ (W.bits - 1) - 1 < n → W ≠ .w128 ∧ Raises (.zz W) s .outOfRange)

/-- R88: UNZZ at W delivers the integer the operand is the image of, sign-extended, or `OutOfRange`, which cannot
happen at width 128. -/
def Obligations.UnzigzagOperation : Prop :=
  ∀ (W : Width) (s : State) (u : Nat), s.req.valIn.toNat = u →
    decode (commandWord W 0 4) = .ok (.unzz W) ∧
    (u ≤ 2 ^ W.bits - 1 → -2 ^ (W.bits - 1) ≤ unzigzagInt u ∧ unzigzagInt u ≤ 2 ^ (W.bits - 1) - 1 ∧
      Returns (.unzz W) s (BitVec.ofInt 128 (unzigzagInt u)) 0) ∧
    (2 ^ W.bits - 1 < u → W ≠ .w128 ∧ Raises (.unzz W) s .outOfRange)

/-- The two operations undo each other at each width, both ways, and a value in range of two widths has one image at
both (R83). -/
def Obligations.ZigzagIsABijection : Prop :=
  (∀ (W : Width) (s t : State), exec (.zz W) s = .next t → t.resp.status = .ok →
    Returns (.unzz W) (withValue s t.resp.valOut) s.req.valIn 0) ∧
  (∀ (W : Width) (s t : State), exec (.unzz W) s = .next t → t.resp.status = .ok →
    Returns (.zz W) (withValue s t.resp.valOut) s.req.valIn 0) ∧
  (∀ (W W' : Width) (s t t' : State), exec (.zz W) s = .next t → t.resp.status = .ok →
    exec (.zz W') s = .next t' → t'.resp.status = .ok → t.resp = t'.resp)

/-! ## The signed codec (45_signed.md) -/

/-- R92: ENC signed at W raises `OutOfRange` outside the signed range, which cannot happen at width 128; inside it, it
answers exactly as ENC unsigned for the operand's zigzag image `u`, with the layouts of R68. -/
def Obligations.EncodeSigned : Prop :=
  ∀ (W : Width) (s : State) (n : Int), s.req.valIn.toInt = n →
    decode (commandWord W 1 0) = .ok (.encS W) ∧
    (n < -2 ^ (W.bits - 1) ∨ 2 ^ (W.bits - 1) - 1 < n → W ≠ .w128 ∧ Raises (.encS W) s .outOfRange) ∧
    (-2 ^ (W.bits - 1) ≤ n → n ≤ 2 ^ (W.bits - 1) - 1 → ∀ u : Nat, (u : Int) = zigzagInt n →
      u ≤ 2 ^ W.bits - 1 ∧
      (∃ r, Answers (.encS W) s r ∧ Answers (.encU W) (withValue s (BitVec.ofNat 128 u)) r ∧ r.status = .ok) ∧
      (∀ L, 1 ≤ L → L ≤ nmark W → base L ≤ u → u < base (L + 1) →
        Writes (.encS W) s L (markerByte L (u - base L))) ∧
      (ovfBase W ≤ u → Writes (.encS W) s (maxBytes W) (overflowByte (u - ovfBase W))))

/-- R92: ENC signed answers what ENC unsigned answers for the result of ZZ, and fails exactly when ZZ does. -/
def Obligations.EncodeSignedIsZigzagThenEncode : Prop :=
  ∀ (W : Width) (s t : State), exec (.zz W) s = .next t →
    (t.resp.status = .ok → ∃ r, Answers (.encS W) s r ∧ Answers (.encU W) (withValue s t.resp.valOut) r ∧ r.status = .ok) ∧
    (t.resp.status ≠ .ok → t.resp.status = .error .outOfRange ∧ Raises (.encS W) s .outOfRange)

/-- DEC signed at W of a window that holds a whole form: the integer that `u`, the class base plus the payload, is the
zigzag image of; `OutOfRange` when `u` exceeds `2^W - 1` (R96). -/
def Obligations.DecodeSigned : Prop :=
  ∀ (W : Width) (s : State),
    (∀ L, MarkerPrefix L (s.req.winIn.byte 0) → L ≤ maxBytes W → L ≤ min s.req.availIn.toNat 18 →
      (cbase W L + markerPayload L s.req.winIn ≤ 2 ^ W.bits - 1 →
        Returns (.decS W) s (BitVec.ofInt 128 (unzigzagInt (cbase W L + markerPayload L s.req.winIn))) L) ∧
      (2 ^ W.bits - 1 < cbase W L + markerPayload L s.req.winIn → Raises (.decS W) s .outOfRange)) ∧
    (s.req.winIn.byte 0 = 0 → maxBytes W ≤ min s.req.availIn.toNat 18 →
      (ovfBase W + overflowPayload (maxBytes W) s.req.winIn ≤ 2 ^ W.bits - 1 →
        Returns (.decS W) s (BitVec.ofInt 128 (unzigzagInt (ovfBase W + overflowPayload (maxBytes W) s.req.winIn)))
          (maxBytes W)) ∧
      (2 ^ W.bits - 1 < ovfBase W + overflowPayload (maxBytes W) s.req.winIn → Raises (.decS W) s .outOfRange))

/-- R96: DEC signed has the status and length of DEC unsigned on the same window, on success the
value UNZZ makes of DEC unsigned's, and no form on the output window; and it undoes ENC signed, whatever follows the
form. -/
def Obligations.SignedDecodeFollowsUnsigned : Prop :=
  (∀ W : Width, decode (commandWord W 1 1) = .ok (.decS W)) ∧
  (∀ (W : Width) (s t : State), exec (.decU W) s = .next t →
    ∃ u, exec (.decS W) s = .next u ∧ u.resp.status = t.resp.status ∧ u.resp.lenOut = t.resp.lenOut ∧
      u.resp.winOut = Window.zero ∧
      (t.resp.status = .ok → u.resp.valOut.toInt = unzigzagInt t.resp.valOut.toNat ∧
        Returns (.unzz W) (withValue s t.resp.valOut) u.resp.valOut 0)) ∧
  (∀ (W : Width) (s t u : State), exec (.encS W) s = .next t → t.resp.status = .ok →
    SamePrefix t.resp.lenOut.toNat u.req.winIn t.resp.winOut → t.resp.lenOut.toNat ≤ min u.req.availIn.toNat 18 →
    Returns (.decS W) u s.req.valIn t.resp.lenOut.toNat)

/-- A form does not record its signedness: DEC unsigned of what ENC signed wrote is the zigzag image, which is what ZZ
delivers, and no error (R125). -/
def Obligations.SignednessIsNotRecorded : Prop :=
  ∀ (W : Width) (s t u z : State), exec (.encS W) s = .next t → t.resp.status = .ok →
    SamePrefix t.resp.lenOut.toNat u.req.winIn t.resp.winOut → t.resp.lenOut.toNat ≤ min u.req.availIn.toNat 18 →
    exec (.zz W) s = .next z → Returns (.decU W) u z.resp.valOut t.resp.lenOut.toNat

/-! ## Errors (60_exceptions.md) -/

/-- R101: the numbers of the status codes. -/
def Obligations.StatusCodes : Prop :=
  Status.code .ok = 0 ∧ Status.code (.error .outOfRange) = 1 ∧ Status.code (.error .truncatedInput) = 2 ∧
  Status.code (.error .invalidPrefix) = 3

/-- R16, R106: every output port an operation does not write is zero, the window past the form is zero, and a failing
response carries nothing; the request ports are as they were. For all 54 rows; that a `byte0` row, which is no
operation, has a response at all is the model's choice (log entry 5). -/
def Obligations.UnwrittenPortsAreZero : Prop :=
  ∀ (i : Instr) (s t : State), exec i s = .next t → Clean i t.resp ∧ t.req = s.req

/-- R109: which operation can report which status, both ways: it reports no other, and some request makes it report
each. -/
def Obligations.StatusMatrix : Prop :=
  ∀ (i : Instr) (st : Status), i.isCommand = true →
    ((∃ s t, exec i s = .next t ∧ t.resp.status = st) ↔ mayReport i st = true)

/-- After `TruncatedInput` with a first byte present, the same first byte and enough bytes no longer truncate; after
`InvalidPrefix` or `OutOfRange` more bytes cannot help (R107). -/
def Obligations.RetryAfterTruncation : Prop :=
  ∀ (W : Width) (i : Instr) (s s' : State), i = .unpack W ∨ i = .decU W ∨ i = .decS W →
    (Raises i s .truncatedInput → s.req.availIn ≠ 0 → s'.req.winIn.byte 0 = s.req.winIn.byte 0 →
      ∃ L f, lpa W (s.req.winIn.byte 0) = .ok (L, f) ∧ min s.req.availIn.toNat 18 < L ∧
        (L ≤ min s'.req.availIn.toNat 18 →
          ∃ r, Answers i s' r ∧ (r.status = .ok ∨ r.status = .error .outOfRange))) ∧
    (∀ k, k = .invalidPrefix ∨ k = .outOfRange → Raises i s k →
      SamePrefix (min s.req.availIn.toNat 18) s'.req.winIn s.req.winIn →
      min s.req.availIn.toNat 18 ≤ min s'.req.availIn.toNat 18 → Raises i s' k)

/-! ## The machine as a whole (10_state.md, 20_memory.md, 70_reset_and_hazards.md) -/

/-- No operation stops: every instruction, in every state, answers a next state that differs from it in the response
ports alone (R12, R100). For the 27 commands this is the spec's; that a `byte0` row, which is no operation, answers at
all is the model's choice (log entry 5). -/
def Obligations.EveryOperationCompletes : Prop :=
  ∀ (i : Instr) (s : State), ∃ r, exec i s = .next { s with resp := r }

/-- R12: a request whose command word is not reserved is answered; the response depends on the request alone; the
request is kept; and the same request again gives the same response. -/
def Obligations.ResponseIsAFunctionOfTheRequest : Prop :=
  ∀ s : State,
    ((∃ i, decode s.req.cmd = .ok i) → ∃ t, step s = .next t) ∧
    (∀ t, step s = .next t → t.req = s.req ∧ step t = .next t ∧
      ∀ s' : State, s'.req = s.req → ∃ t', step s' = .next t' ∧ t'.resp = t.resp)

/-- R17, R23: a port an operation does not read has no effect. ENC, ZZ and UNZZ read `val_in` alone, PACK `val_in` and
`len_in`, PEEK the first byte alone; DEC and UNPACK read `avail_in`, the first byte when there is one, and the `L`
bytes of the form when all of them are there. -/
def Obligations.UnreadInputsHaveNoEffect : Prop :=
  ∀ (W : Width) (s s' : State),
    (s.req.valIn = s'.req.valIn → SameResponse (.encU W) s s' ∧ SameResponse (.encS W) s s' ∧
      SameResponse (.zz W) s s' ∧ SameResponse (.unzz W) s s') ∧
    (s.req.valIn = s'.req.valIn → s.req.lenIn = s'.req.lenIn → SameResponse (.pack W) s s') ∧
    (s.req.winIn.byte 0 = s'.req.winIn.byte 0 → SameResponse (.peek W) s s') ∧
    (s.req.availIn = s'.req.availIn → (1 ≤ s.req.availIn.toNat → s.req.winIn.byte 0 = s'.req.winIn.byte 0) →
      (∀ L f, lpa W (s.req.winIn.byte 0) = .ok (L, f) → L ≤ min s.req.availIn.toNat 18 →
        SamePrefix L s.req.winIn s'.req.winIn) →
      SameResponse (.decU W) s s' ∧ SameResponse (.decS W) s s' ∧ SameResponse (.unpack W) s s')

/-- R21: the values 19 .. 31 of `avail_in` behave as 18, for every row. That a `byte0` row, which is no operation,
answers at all is the model's choice (log entry 5). -/
def Obligations.AvailSaturatesAtEighteen : Prop :=
  ∀ (i : Instr) (s : State), 18 ≤ s.req.availIn.toNat → SameResponse i s (withAvail s 18)

/-- Every step, from every state, leaves a response the rules allow the command presented, so that this is an invariant
of the machine: a status of R109's matrix, zeros on the ports the operation does not write (R16), an existing length
(R34) and a result in range (R15). Nothing is asked of the state before the step, since nothing of it but the request
reaches the state after (R12). -/
def Obligations.StepKeepsResponseAllowed : Prop :=
  ∀ s s' : State, step s = .next s' → ResponseAllowed s'

/-- The response on the outputs at reset is one the rules allow the command on the port at reset; which command that is
is the model's choice (log entries 2 and 3). -/
def Obligations.ResetResponseAllowed : Prop :=
  ResponseAllowed State.reset

/-- At reset the outputs are `F` of the inputs, as R18 and R120 say of every moment; the request the inputs hold is the
model's choice (log entry 2). -/
def Obligations.ResetIsSettled : Prop :=
  Settled State.reset

/-- The outputs are `F` of the inputs at all times (R12, R18, R120). `F` gives each request with a defined command word
the response of the operation, and a reserved one none (R32); presenting a request, driving a word on the command port
and taking a step all leave the outputs equal to `F` of the inputs, whatever stood on them before; and where they are
equal, a transaction changes nothing more. With `ResetIsSettled`, no run leaves the states where they are equal. -/
def Obligations.OutputsAreFOfTheInputs : Prop :=
  (∀ (s : State) (i : Instr), decode s.req.cmd = .ok i →
    ∃ r, s.req.response = some r ∧ exec i s = .next { s with resp := r }) ∧
  (∀ (q : Request) (why : Reserved), decode q.cmd = .error why → q.response = none) ∧
  (∀ (s : State) (q : Request), (s.present q).req = q ∧ OutputsFollowInputs (s.present q)) ∧
  (∀ (s : State) (nbits w : Nat), OutputsFollowInputs (s.withFetchWord nbits w)) ∧
  (∀ s t : State, step s = .next t → OutputsFollowInputs t) ∧
  (∀ (s : State) (i : Instr), decode s.req.cmd = .ok i → OutputsFollowInputs s → step s = .next s)
end

