-- ==== Sys2Proof/Laws/Params.lean ====
section
/-! SUPPORT. The thresholds and per-width constants as numbers, and the shape of the class table (R6, R7, R33, R34). -/

namespace Sys2Proof.Machine

@[simp] theorem base_one : base 1 = 0 := rfl

/-- `base(L + 1) = base(L) + 2^(7L)` (R33). -/
theorem base_succ {L : Nat} (h : 1 ≤ L) : base (L + 1) = base L + 2 ^ (7 * L) := by
  obtain ⟨n, rfl⟩ := Nat.exists_eq_add_of_le' h
  rfl

theorem base_mono {L L' : Nat} (h : L ≤ L') : base L ≤ base L' := by
  induction h with
  | refl => exact Nat.le_refl _
  | @step m _ ih =>
    cases m with
    | zero => exact ih
    | succ m => exact Nat.le_trans ih (Nat.le_add_right _ _)

theorem maxBytes_le (W : Width) : maxBytes W ≤ 18 := by cases W <;> decide
theorem nmark_lt_maxBytes (W : Width) : nmark W < maxBytes W := by cases W <;> decide
theorem nmark_le (W : Width) : nmark W ≤ 8 := by cases W <;> decide

/-- `cbase` of a marker class is `base` of its length (R7). -/
theorem cbase_of_le {W : Width} {L : Nat} (h : L ≤ 9) : cbase W L = base L := by
  simp [cbase, Nat.min_eq_left h]

/-- `cbase` of the overflow class is `OB(W)` (R7, R42). -/
theorem cbase_maxBytes (W : Width) : cbase W (maxBytes W) = ovfBase W := by cases W <;> decide

theorem ovfBase_le (W : Width) : ovfBase W ≤ 2 ^ W.bits - 1 := by cases W <;> decide

/-- The payload field of the overflow form holds every payload the encoder writes (R68). -/
theorem two_pow_bits_le (W : Width) : 2 ^ W.bits ≤ 256 ^ (maxBytes W - 1) := by cases W <;> decide

end Sys2Proof.Machine
end

