-- ==== Sys2Proof/Laws/State.lean ====
section
/-! SUPPORT. One lemma per field per update of the state, true by rfl, and the fields of the shared responses. -/

namespace Sys2Proof.Machine

@[simp] theorem present_req (s : State) (q : Request) : (s.present q).req = q := rfl
@[simp] theorem present_resp (s : State) (q : Request) : (s.present q).resp = q.response.getD s.resp := rfl

@[simp] theorem withFetchWord_cmd (s : State) (nbits w : Nat) :
    (s.withFetchWord nbits w).req.cmd = BitVec.ofNat 8 (w % 2 ^ nbits) := rfl
@[simp] theorem withFetchWord_valIn (s : State) (nbits w : Nat) :
    (s.withFetchWord nbits w).req.valIn = s.req.valIn := rfl
@[simp] theorem withFetchWord_lenIn (s : State) (nbits w : Nat) :
    (s.withFetchWord nbits w).req.lenIn = s.req.lenIn := rfl
@[simp] theorem withFetchWord_winIn (s : State) (nbits w : Nat) :
    (s.withFetchWord nbits w).req.winIn = s.req.winIn := rfl
@[simp] theorem withFetchWord_availIn (s : State) (nbits w : Nat) :
    (s.withFetchWord nbits w).req.availIn = s.req.availIn := rfl
@[simp] theorem withFetchWord_resp (s : State) (nbits w : Nat) :
    (s.withFetchWord nbits w).resp = (s.withFetchWord nbits w).req.response.getD s.resp := rfl

@[simp] theorem raise_status (k : ErrorKind) : (raise k).status = .error k := rfl
@[simp] theorem raise_valOut (k : ErrorKind) : (raise k).valOut = 0 := rfl
@[simp] theorem raise_lenOut (k : ErrorKind) : (raise k).lenOut = 0 := rfl
@[simp] theorem raise_winOut (k : ErrorKind) : (raise k).winOut = Window.zero := rfl

@[simp] theorem okLength_status (L : Nat) : (okLength L).status = .ok := rfl
@[simp] theorem okLength_valOut (L : Nat) : (okLength L).valOut = 0 := rfl
@[simp] theorem okLength_lenOut (L : Nat) : (okLength L).lenOut = BitVec.ofNat 5 L := rfl
@[simp] theorem okLength_winOut (L : Nat) : (okLength L).winOut = Window.zero := rfl

@[simp] theorem okForm_status (out : List Byte) : (okForm out).status = .ok := rfl
@[simp] theorem okForm_valOut (out : List Byte) : (okForm out).valOut = 0 := rfl
@[simp] theorem okForm_lenOut (out : List Byte) : (okForm out).lenOut = BitVec.ofNat 5 out.length := rfl
@[simp] theorem okForm_winOut (out : List Byte) : (okForm out).winOut = Window.memWrite out := rfl

@[simp] theorem okValue_status (v : Value) (L : Nat) : (okValue v L).status = .ok := rfl
@[simp] theorem okValue_valOut (v : Value) (L : Nat) : (okValue v L).valOut = v := rfl
@[simp] theorem okValue_lenOut (v : Value) (L : Nat) : (okValue v L).lenOut = BitVec.ofNat 5 L := rfl
@[simp] theorem okValue_winOut (v : Value) (L : Nat) : (okValue v L).winOut = Window.zero := rfl

@[simp] theorem deliver_ok {α : Type} (f : α → Response) (a : α) : deliver f (.ok a) = f a := rfl
@[simp] theorem deliver_error {α : Type} (f : α → Response) (k : ErrorKind) : deliver f (.error k) = raise k := rfl

@[simp] theorem statusOf_ok {α : Type} (a : α) : statusOf (.ok a : Except ErrorKind α) = .ok := rfl
@[simp] theorem statusOf_error {α : Type} (k : ErrorKind) : statusOf (.error k : Except ErrorKind α) = .error k := rfl

/-- The status of a delivered computation is the computation's own, when its success is reported as `OK`. -/
theorem deliver_status {α : Type} {f : α → Response} (hf : ∀ a, (f a).status = .ok) (x : Except ErrorKind α) :
    (deliver f x).status = statusOf x := by
  cases x with
  | ok a => exact hf a
  | error k => rfl

/-- Every shared operation writes the response through this one: it never stops and keeps the request (R12). -/
theorem respond_eq_next {s t : State} {r : Response} : s.respond r = .next t ↔ t = { s with resp := r } := by
  simp [State.respond, eq_comm]

end Sys2Proof.Machine
end

