-- ==== Sys2Proof/Laws/Analyzer.lean ====
section
/-! SUPPORT. The length-prefix analyzer: what it answers on each range of first bytes (R36, R50). -/

namespace Sys2Proof.Machine

theorem clz8_le (b : Byte) : clz8 b ≤ 8 := by revert b; decide
theorem clz8_eq_eight {b : Byte} : clz8 b = 8 ↔ b = 0 := by revert b; decide

/-- A byte in `2^(7-z) .. 2^(8-z) - 1` has exactly `z` leading zero bits, and no other byte has (R9, R36). -/
theorem clz8_eq_iff (b : Byte) {z : Nat} (hz : z < 8) : clz8 b = z ↔ 2 ^ (7 - z) ≤ b.toNat ∧ b.toNat < 2 ^ (8 - z) := by
  revert b
  interval_cases z <;> decide

/-- All the analyzer can answer: the overflow form for 0x00, else a marker form whose length is the leading zero count
plus one, where the width has that length, else `InvalidPrefix` (R50). -/
theorem lpa_cases (W : Width) (b : Byte) :
    (b = 0 ∧ lpa W b = .ok (maxBytes W, .overflow)) ∨
    (b ≠ 0 ∧ ∃ L, 1 ≤ L ∧ L ≤ 8 ∧ clz8 b = L - 1 ∧
      ((L ≤ maxBytes W ∧ lpa W b = .ok (L, .marker)) ∨ (maxBytes W < L ∧ lpa W b = .error .invalidPrefix))) := by
  by_cases h : b = 0
  · left
    subst h
    exact ⟨rfl, rfl⟩
  · right
    have h8 : clz8 b ≠ 8 := fun e => h (clz8_eq_eight.1 e)
    have hle := clz8_le b
    refine ⟨h, clz8 b + 1, by omega, by omega, by omega, ?_⟩
    by_cases hm : maxBytes W < clz8 b + 1
    · right
      exact ⟨hm, by simp [lpa, h8, hm]⟩
    · left
      exact ⟨by omega, by simp [lpa, h8, hm]⟩

theorem lpa_zero (W : Width) : lpa W 0 = .ok (maxBytes W, .overflow) := rfl

theorem lpa_marker {W : Width} {L : Nat} {b : Byte} (h : clz8 b = L - 1) (h1 : 1 ≤ L) (h8 : L ≤ 8)
    (hM : L ≤ maxBytes W) : lpa W b = .ok (L, .marker) := by
  have hne : clz8 b ≠ 8 := by omega
  have hZ : clz8 b + 1 = L := by omega
  simp [lpa, hne, hZ, Nat.not_lt.2 hM]

theorem lpa_invalid {W : Width} {L : Nat} {b : Byte} (h : clz8 b = L - 1) (h1 : 1 ≤ L) (h8 : L ≤ 8)
    (hM : maxBytes W < L) : lpa W b = .error .invalidPrefix := by
  have hne : clz8 b ≠ 8 := by omega
  have hZ : clz8 b + 1 = L := by omega
  simp [lpa, hne, hZ, hM]

/-- The length answered is in `1 .. M(W)` (R50). -/
theorem lpa_length {W : Width} {b : Byte} {L : Nat} {f : Form} (h : lpa W b = .ok (L, f)) :
    1 ≤ L ∧ L ≤ maxBytes W ∧ (f = .marker → L ≤ 8 ∧ clz8 b = L - 1) ∧ (f = .overflow → L = maxBytes W ∧ b = 0) := by
  rcases lpa_cases W b with ⟨hb, e⟩ | ⟨_, L', h1, h8, hz, ⟨hM, e⟩ | ⟨_, e⟩⟩
  · rw [h] at e
    cases e
    refine ⟨by cases W <;> decide, Nat.le_refl _, by simp, fun _ => ⟨rfl, hb⟩⟩
  · rw [h] at e
    cases e
    exact ⟨h1, hM, fun _ => ⟨h8, hz⟩, by simp⟩
  · rw [h] at e
    cases e

/-- The only error of the analyzer (R50). -/
theorem lpa_error {W : Width} {b : Byte} {k : ErrorKind} (h : lpa W b = .error k) : k = .invalidPrefix ∧ W = .w32 := by
  rcases lpa_cases W b with ⟨_, e⟩ | ⟨_, L, _, h8, _, ⟨_, e⟩ | ⟨hM, e⟩⟩
  · rw [h] at e; cases e
  · rw [h] at e; cases e
  · rw [h] at e
    cases e
    refine ⟨rfl, ?_⟩
    cases W
    · rfl
    · simp [maxBytes] at hM; omega
    · simp [maxBytes] at hM; omega

end Sys2Proof.Machine
end

