-- ==== Sys2Proof/Laws/Window.lean ====
section
/-! SUPPORT. The byte windows: reading what was written, reading past it, and reading a run of bytes. -/

namespace Sys2Proof.Machine

theorem byte_of_lt (w : Window) {i : Nat} (h : i < 18) : w.byte i = w[i]'h := by
  simp [Window.byte, h]

theorem byte_of_ge (w : Window) {i : Nat} (h : 18 ≤ i) : w.byte i = 0 := by
  simp [Window.byte, Nat.not_lt.2 h]

/-- A byte read back after a write is the byte written there, or 0x00 past the bytes written (R16, R24). -/
theorem byte_memWrite (out : List Byte) {i : Nat} (h : i < 18) : (Window.memWrite out).byte i = out.getD i 0 := by
  rw [byte_of_lt _ h]
  simp [Window.memWrite]

@[simp] theorem byte_zero (i : Nat) : Window.zero.byte i = 0 := by
  rcases Nat.lt_or_ge i 18 with h | h
  · rw [byte_of_lt _ h]
    simp [Window.zero]
  · exact byte_of_ge _ h

/-- Two windows with the same 18 bytes are the same window. -/
theorem window_ext {w w' : Window} (h : ∀ i, i < 18 → w.byte i = w'.byte i) : w = w' := by
  apply Vector.ext
  intro i hi
  simpa [byte_of_lt _ hi] using h i hi

@[simp] theorem length_memRead (w : Window) (a n : Nat) : (w.memRead a n).length = n := by
  simp [Window.memRead]

theorem getD_memRead (w : Window) (a : Nat) {n k : Nat} (h : k < n) : (w.memRead a n).getD k 0 = w.byte (a + k) := by
  simp [Window.memRead, List.getD, h]

/-- A run of bytes depends on those bytes alone. -/
theorem memRead_congr {w w' : Window} {a n : Nat} (h : ∀ k, k < n → w.byte (a + k) = w'.byte (a + k)) :
    w.memRead a n = w'.memRead a n := by
  unfold Window.memRead
  exact List.map_congr_left fun k hk => h k (List.mem_range.1 hk)

theorem memRead_succ (w : Window) (a n : Nat) : w.memRead a (n + 1) = w.memRead a n ++ [w.byte (a + n)] := by
  simp [Window.memRead, List.range_succ]

theorem memRead_cons (w : Window) (a n : Nat) : w.memRead a (n + 1) = w.byte a :: w.memRead (a + 1) n := by
  simp only [Window.memRead, List.range_succ_eq_map, List.map_cons, List.map_map, Nat.add_zero, List.cons.injEq, true_and]
  apply List.map_congr_left
  intro k _
  simp [Nat.add_assoc, Nat.add_comm 1 k]

/-- Reading a whole form off the front of a window that starts with it gives the form back. -/
theorem memRead_of_prefix {w : Window} {out : List Byte} (h : ∀ k, k < out.length → w.byte k = out.getD k 0) :
    w.memRead 0 out.length = out := by
  apply List.ext_getElem
  · simp
  · intro k h1 h2
    have := h k h2
    simp [Window.memRead, this, h2]

end Sys2Proof.Machine
end

