-- ==== Sys2Proof/Laws/Bytes.lean ====
section
/-! SUPPORT. Splitting an integer into bytes and joining bytes into an integer are inverse, and agree with the
quotient and the sum R38 and R39 write them as. -/

namespace Sys2Proof.Machine

@[simp] theorem length_splitBytes (n P : Nat) : (splitBytes n P).length = n := by
  induction n generalizing P with
  | zero => rfl
  | succ n ih => simp [splitBytes, ih]

/-- Byte `j` of the split is `floor(P / 2^(8j)) mod 256` (R38, R39). -/
theorem splitBytes_getD {n j : Nat} (P : Nat) (h : j < n) :
    ((splitBytes n P).getD j 0).toNat = P / 2 ^ (8 * j) % 256 := by
  induction n generalizing P j with
  | zero => omega
  | succ n ih =>
    cases j with
    | zero => simp [splitBytes]
    | succ j =>
      have := ih (P / 256) (Nat.lt_of_succ_lt_succ h)
      simp only [splitBytes, List.getD_cons_succ, this, Nat.div_div_eq_div_mul]
      congr 2
      rw [Nat.mul_succ, Nat.pow_add, Nat.mul_comm]

/-- Joining the split gives the integer back, less what did not fit (R57). -/
theorem joinBytes_splitBytes (n P : Nat) : joinBytes (splitBytes n P) = P % 256 ^ n := by
  induction n generalizing P with
  | zero => simp [splitBytes, joinBytes, Nat.mod_one]
  | succ n ih =>
    simp only [splitBytes, joinBytes, ih, BitVec.toNat_ofNat]
    rw [Nat.pow_succ' (m := 256), Nat.mod_mul]

theorem joinBytes_lt (bs : List Byte) : joinBytes bs < 256 ^ bs.length := by
  induction bs with
  | nil => simp [joinBytes]
  | cons b bs ih =>
    have hb : b.toNat < 256 := b.isLt
    simp only [joinBytes, List.length_cons, Nat.pow_succ']
    omega

/-- Splitting the join gives the bytes back. -/
theorem splitBytes_joinBytes (bs : List Byte) : splitBytes bs.length (joinBytes bs) = bs := by
  induction bs with
  | nil => rfl
  | cons b bs ih =>
    have hb : b.toNat < 256 := b.isLt
    have hq : (b.toNat + 256 * joinBytes bs) / 256 = joinBytes bs := by omega
    have hr : BitVec.ofNat 8 (b.toNat + 256 * joinBytes bs) = b := by
      apply BitVec.eq_of_toNat_eq
      simp only [BitVec.toNat_ofNat]
      omega
    simp [splitBytes, joinBytes, hq, hr, ih]

theorem joinBytes_append (bs : List Byte) (b : Byte) :
    joinBytes (bs ++ [b]) = joinBytes bs + b.toNat * 2 ^ (8 * bs.length) := by
  induction bs with
  | nil => simp [joinBytes]
  | cons c bs ih =>
    have : 2 ^ (8 * (bs.length + 1)) = 256 * 2 ^ (8 * bs.length) := by rw [Nat.mul_succ, Nat.pow_add, Nat.mul_comm]
    simp only [List.cons_append, joinBytes, ih, List.length_cons, this]
    ring

/-- The join of the bytes after byte 0 is the sum R38 and R39 write. -/
theorem joinBytes_memRead (w : Window) (n : Nat) :
    joinBytes (w.memRead 1 n) = ∑ k ∈ Finset.Icc 1 n, (w.byte k).toNat * 2 ^ (8 * (k - 1)) := by
  induction n with
  | zero => simp [Window.memRead, joinBytes]
  | succ n ih =>
    rw [memRead_succ, joinBytes_append, ih, Finset.sum_Icc_succ_top (by omega), length_memRead, Nat.add_comm 1 n]
    simp

end Sys2Proof.Machine
end

