-- ==== Sys2Proof/Laws/Forms.lean ====
section
/-! SUPPORT. The packer and the unpacker: the bytes of a form are those of R38 and R39, a packed form unpacks to its
payload, and an unpacked payload packs to its bytes (R55 to R57, R66). -/

namespace Sys2Proof.Machine

open Sys2Proof.Safety

/-- A window starts with the bytes of `out`. -/
def StartsWith (w : Window) (out : List Byte) : Prop :=
  ∀ k, k < out.length → w.byte k = out.getD k 0

theorem startsWith_cons {w : Window} {b : Byte} {bs : List Byte} (h : StartsWith w (b :: bs)) :
    w.byte 0 = b ∧ w.memRead 1 bs.length = bs := by
  refine ⟨by simpa using h 0 (by simp), ?_⟩
  apply List.ext_getElem
  · simp
  · intro k h1 h2
    have := h (k + 1) (by simpa using h2)
    simp [Window.memRead, Nat.add_comm 1 k, this, h2]

theorem startsWith_memWrite {out : List Byte} (h : out.length ≤ 18) : StartsWith (Window.memWrite out) out :=
  fun _ hk => byte_memWrite out (Nat.lt_of_lt_of_le hk h)

/-! ## The bytes of a form -/

@[simp] theorem length_packMarker {L : Nat} (P : Nat) (h : 1 ≤ L) : (packMarker L P).length = L := by
  simp [packMarker]
  omega

@[simp] theorem length_packOvf (W : Width) (Q : Nat) : (packOvf W Q).length = maxBytes W := by
  cases W <;> simp [packOvf, maxBytes]

theorem two_pow_field {L : Nat} (h1 : 1 ≤ L) (h8 : L ≤ 8) : 2 ^ (7 * L) = 2 ^ (8 - L) * 256 ^ (L - 1) := by
  have h256 : (256 : Nat) = 2 ^ 8 := rfl
  rw [h256, ← Nat.pow_mul, ← Nat.pow_add]
  congr 1
  omega

theorem packMarker_byte0 {L : Nat} (P : Nat) (h1 : 1 ≤ L) (h8 : L ≤ 8) :
    ((packMarker L P).getD 0 0).toNat = 2 ^ (8 - L) + P % 2 ^ (8 - L) := by
  have hm : P % 2 ^ (8 - L) < 2 ^ (8 - L) := Nat.mod_lt _ (Nat.two_pow_pos _)
  have h7 : 2 ^ (8 - L) ≤ 2 ^ 7 := Nat.pow_le_pow_right (by decide) (by omega)
  simp only [packMarker, List.getD_cons_zero, BitVec.toNat_ofNat]
  exact Nat.mod_eq_of_lt (by omega)

/-- The marker form's bytes are those of R38. -/
theorem packMarker_getD {L k : Nat} (P : Nat) (h1 : 1 ≤ L) (h8 : L ≤ 8) (hk : k < L) :
    ((packMarker L P).getD k 0).toNat = markerByte L P k := by
  cases k with
  | zero => simpa [markerByte] using packMarker_byte0 P h1 h8
  | succ k =>
    simp only [packMarker, List.getD_cons_succ, markerByte, Nat.succ_ne_zero, if_false, Nat.add_sub_cancel]
    rw [splitBytes_getD _ (by omega), Nat.div_div_eq_div_mul, ← Nat.pow_add]

/-- The overflow form's bytes are those of R39. -/
theorem packOvf_getD {W : Width} {k : Nat} (Q : Nat) (hk : k < maxBytes W) :
    ((packOvf W Q).getD k 0).toNat = overflowByte Q k := by
  cases k with
  | zero => simp [packOvf, overflowByte]
  | succ k =>
    simp only [packOvf, List.getD_cons_succ, overflowByte, Nat.succ_ne_zero, if_false, Nat.add_sub_cancel]
    exact splitBytes_getD _ (by omega)

/-- The marker's position is what `lpa` recovers (R55). -/
theorem clz8_packMarker {L : Nat} (P : Nat) (h1 : 1 ≤ L) (h8 : L ≤ 8) : clz8 ((packMarker L P).getD 0 0) = L - 1 := by
  rw [clz8_eq_iff _ (by omega), packMarker_byte0 P h1 h8]
  have hm : P % 2 ^ (8 - L) < 2 ^ (8 - L) := Nat.mod_lt _ (Nat.two_pow_pos _)
  have e1 : 7 - (L - 1) = 8 - L := by omega
  have e2 : 8 - (L - 1) = 8 - L + 1 := by omega
  rw [e1, e2, Nat.pow_succ]
  omega

/-! ## The payload of a form -/

theorem payloadOf_marker (L : Nat) (w : Window) : payloadOf .marker L w = markerPayload L w := by
  simp only [payloadOf, markerPayload, joinBytes_memRead, Finset.mul_sum]
  congr 1
  apply Finset.sum_congr rfl
  intro k _
  rw [Nat.pow_add]
  ring

theorem payloadOf_overflow (L : Nat) (w : Window) : payloadOf .overflow L w = overflowPayload L w := by
  simp only [payloadOf, overflowPayload, joinBytes_memRead]

theorem payloadOf_marker_lt {L : Nat} (w : Window) (h1 : 1 ≤ L) (h8 : L ≤ 8) : payloadOf .marker L w < 2 ^ (7 * L) := by
  have hj := joinBytes_lt (w.memRead 1 (L - 1))
  have hm : (w.byte 0).toNat % 2 ^ (8 - L) < 2 ^ (8 - L) := Nat.mod_lt _ (Nat.two_pow_pos _)
  rw [length_memRead] at hj
  rw [two_pow_field h1 h8]
  simp only [payloadOf]
  calc _ < 2 ^ (8 - L) + 2 ^ (8 - L) * joinBytes (w.memRead 1 (L - 1)) := by omega
    _ = 2 ^ (8 - L) * (joinBytes (w.memRead 1 (L - 1)) + 1) := by ring
    _ ≤ _ := Nat.mul_le_mul_left _ hj

theorem payloadOf_overflow_lt (L : Nat) (w : Window) : payloadOf .overflow L w < 256 ^ (L - 1) := by
  simpa [payloadOf] using joinBytes_lt (w.memRead 1 (L - 1))

/-- A payload depends on the bytes of its form alone (R23). -/
theorem payloadOf_congr {w w' : Window} {L : Nat} (f : Form) (h1 : 1 ≤ L) (h : ∀ k, k < L → w.byte k = w'.byte k) :
    payloadOf f L w = payloadOf f L w' := by
  have hm : w.memRead 1 (L - 1) = w'.memRead 1 (L - 1) := memRead_congr fun k hk => h _ (by omega)
  cases f <;> simp [payloadOf, hm, h 0 (by omega)]

/-- A packed marker form unpacks to its payload. -/
theorem payloadOf_packMarker {w : Window} {L P : Nat} (h1 : 1 ≤ L) (h8 : L ≤ 8) (hP : P < 2 ^ (7 * L))
    (h : StartsWith w (packMarker L P)) : payloadOf .marker L w = P := by
  have hc := startsWith_cons (b := BitVec.ofNat 8 (2 ^ (8 - L) + P % 2 ^ (8 - L))) h
  have h0 : (w.byte 0).toNat = 2 ^ (8 - L) + P % 2 ^ (8 - L) := by
    have := packMarker_byte0 P h1 h8
    rw [← h 0 (by simp [h1]; omega)] at this
    exact this
  have hr : w.memRead 1 (L - 1) = splitBytes (L - 1) (P / 2 ^ (8 - L)) := by simpa using hc.2
  have hq : P / 2 ^ (8 - L) < 256 ^ (L - 1) := by
    rw [two_pow_field h1 h8] at hP
    exact Nat.div_lt_of_lt_mul hP
  simp only [payloadOf, hr, joinBytes_splitBytes, h0, Nat.mod_eq_of_lt hq, Nat.add_mod_left, Nat.mod_mod]
  exact Nat.mod_add_div _ _

/-- A packed overflow form unpacks to its payload. -/
theorem payloadOf_packOvf {w : Window} {W : Width} {Q : Nat} (hQ : Q < 256 ^ (maxBytes W - 1))
    (h : StartsWith w (packOvf W Q)) : payloadOf .overflow (maxBytes W) w = Q := by
  have hr : w.memRead 1 (maxBytes W - 1) = splitBytes (maxBytes W - 1) Q := by
    simpa using (startsWith_cons (b := 0) h).2
  simp [payloadOf, hr, joinBytes_splitBytes, Nat.mod_eq_of_lt hQ]

/-- The payload read off a marker form packs to the bytes it was read from. -/
theorem packMarker_payloadOf {w : Window} {L : Nat} (h1 : 1 ≤ L) (h8 : L ≤ 8) (hz : clz8 (w.byte 0) = L - 1) :
    packMarker L (payloadOf .marker L w) = w.memRead 0 L := by
  obtain ⟨n, rfl⟩ := Nat.exists_eq_add_of_le' h1
  have hj := splitBytes_joinBytes (w.memRead 1 n)
  rw [length_memRead] at hj
  have hb := (clz8_eq_iff (w.byte 0) (z := n) (by omega)).1 (by simpa using hz)
  have er : 8 - (n + 1) = 7 - n := by omega
  have ep : 2 ^ (8 - n) = 2 ^ (7 - n) + 2 ^ (7 - n) := by
    rw [show 8 - n = 7 - n + 1 by omega, Nat.pow_succ]; omega
  have hpos : 0 < 2 ^ (7 - n) := Nat.two_pow_pos _
  have hmod : (w.byte 0).toNat % 2 ^ (7 - n) = (w.byte 0).toNat - 2 ^ (7 - n) := by
    rw [Nat.mod_eq_sub_mod hb.1, Nat.mod_eq_of_lt (by omega)]
  rw [memRead_cons]
  simp only [packMarker, payloadOf, er, Nat.add_sub_cancel]
  rw [hmod, Nat.add_mul_mod_self_left, Nat.add_mul_div_left _ _ hpos,
    Nat.mod_eq_of_lt (by omega), Nat.div_eq_of_lt (by omega), Nat.zero_add, hj]
  congr 1
  apply BitVec.eq_of_toNat_eq
  have := (w.byte 0).isLt
  simp only [BitVec.toNat_ofNat]
  omega

/-- The payload read off an overflow form packs to the bytes it was read from. -/
theorem packOvf_payloadOf {w : Window} {W : Width} (h0 : w.byte 0 = 0) :
    packOvf W (payloadOf .overflow (maxBytes W) w) = w.memRead 0 (maxBytes W) := by
  have hj := splitBytes_joinBytes (w.memRead 1 (maxBytes W - 1))
  rw [length_memRead] at hj
  have hM : maxBytes W = maxBytes W - 1 + 1 := by cases W <;> rfl
  rw [hM, memRead_cons, ← hM]
  simp [packOvf, payloadOf, hj, h0]

/-! ## The unpacker -/

/-- All `unpack` can answer, in the order of its tests (R57, R104). -/
theorem unpack_eq_ok {W : Width} {w : Window} {avail L pay : Nat} {f : Form} :
    unpack W w avail = .ok (L, f, pay) ↔ lpa W (w.byte 0) = .ok (L, f) ∧ L ≤ avail ∧ pay = payloadOf f L w := by
  by_cases ha : avail = 0
  · subst ha
    refine ⟨by simp [unpack], ?_⟩
    rintro ⟨hl, hL, _⟩
    have := (lpa_length hl).1
    omega
  · cases e : lpa W (w.byte 0) with
    | error k => simp [unpack, ha, e]
    | ok a =>
      obtain ⟨L', f'⟩ := a
      by_cases hL : avail < L'
      · simp only [unpack, ha, e, hL, if_true, if_false, reduceCtorEq, Except.ok.injEq, Prod.mk.injEq, false_iff]
        rintro ⟨⟨rfl, _⟩, h, _⟩
        omega
      · simp only [unpack, ha, e, hL, if_false, Except.ok.injEq, Prod.mk.injEq]
        constructor
        · rintro ⟨rfl, rfl, rfl⟩
          exact ⟨⟨rfl, rfl⟩, by omega, rfl⟩
        · rintro ⟨⟨rfl, rfl⟩, _, rfl⟩
          exact ⟨rfl, rfl, rfl⟩

theorem unpack_empty (W : Width) (w : Window) : unpack W w 0 = .error .truncatedInput := rfl

theorem unpack_prefix {W : Width} {w : Window} {avail : Nat} {k : ErrorKind} (ha : avail ≠ 0)
    (h : lpa W (w.byte 0) = .error k) : unpack W w avail = .error k := by
  simp [unpack, ha, h]

theorem unpack_short {W : Width} {w : Window} {avail L : Nat} {f : Form} (h : lpa W (w.byte 0) = .ok (L, f))
    (hL : avail < L) : unpack W w avail = .error .truncatedInput := by
  simp [unpack, h, hL]

theorem unpack_form {W : Width} {w : Window} {avail L : Nat} {f : Form} (h : lpa W (w.byte 0) = .ok (L, f))
    (hL : L ≤ avail) : unpack W w avail = .ok (L, f, payloadOf f L w) :=
  unpack_eq_ok.2 ⟨h, hL, rfl⟩

/-- The three causes of an unpack error (R57, R103, R105). -/
theorem unpack_error {W : Width} {w : Window} {avail : Nat} {k : ErrorKind} (h : unpack W w avail = .error k) :
    (k = .truncatedInput ∧ (avail = 0 ∨ ∃ L f, lpa W (w.byte 0) = .ok (L, f) ∧ avail < L)) ∨
    (k = .invalidPrefix ∧ W = .w32 ∧ avail ≠ 0 ∧ lpa W (w.byte 0) = .error .invalidPrefix) := by
  by_cases ha : avail = 0
  · subst ha
    rw [unpack_empty] at h
    cases h
    exact .inl ⟨rfl, .inl rfl⟩
  · cases e : lpa W (w.byte 0) with
    | error k' =>
      rw [unpack_prefix ha e] at h
      cases h
      have := lpa_error e
      exact .inr ⟨this.1, this.2, ha, by rw [← this.1]⟩
    | ok a =>
      obtain ⟨L, f⟩ := a
      by_cases hL : avail < L
      · rw [unpack_short e hL] at h
        cases h
        exact .inl ⟨rfl, .inr ⟨L, f, rfl, hL⟩⟩
      · rw [unpack_form e (by omega)] at h
        cases h

/-- `unpack` reads byte 0 when there is one, and the form's bytes only when all are there (R23, R57). -/
theorem unpack_congr {W : Width} {w w' : Window} {avail : Nat} (h0 : 1 ≤ avail → w.byte 0 = w'.byte 0)
    (h : ∀ L f, lpa W (w.byte 0) = .ok (L, f) → L ≤ avail → ∀ k, k < L → w.byte k = w'.byte k) :
    unpack W w avail = unpack W w' avail := by
  by_cases ha : avail = 0
  · subst ha
    rfl
  · have hb := h0 (by omega)
    cases e : lpa W (w.byte 0) with
    | error k => rw [unpack_prefix ha e, unpack_prefix ha (hb ▸ e)]
    | ok a =>
      obtain ⟨L, f⟩ := a
      by_cases hL : avail < L
      · rw [unpack_short e hL, unpack_short (hb ▸ e) hL]
      · rw [unpack_form e (by omega), unpack_form (hb ▸ e) (by omega),
          payloadOf_congr f (lpa_length e).1 (h L f e (by omega))]

/-- A packed marker form unpacks, whatever follows it (R57). -/
theorem unpack_packMarker {W : Width} {w : Window} {avail L P : Nat} (h1 : 1 ≤ L) (h8 : L ≤ 8) (hM : L ≤ maxBytes W)
    (hP : P < 2 ^ (7 * L)) (h : StartsWith w (packMarker L P)) (ha : L ≤ avail) :
    unpack W w avail = .ok (L, .marker, P) := by
  have hz : clz8 (w.byte 0) = L - 1 := by
    rw [h 0 (by simp [h1]; omega)]
    exact clz8_packMarker P h1 h8
  exact unpack_eq_ok.2 ⟨lpa_marker hz h1 h8 hM, ha, (payloadOf_packMarker h1 h8 hP h).symm⟩

/-- A packed overflow form unpacks, whatever follows it (R57). -/
theorem unpack_packOvf {W : Width} {w : Window} {avail Q : Nat} (hQ : Q < 256 ^ (maxBytes W - 1))
    (h : StartsWith w (packOvf W Q)) (ha : maxBytes W ≤ avail) :
    unpack W w avail = .ok (maxBytes W, .overflow, Q) := by
  have h0 : w.byte 0 = 0 := (startsWith_cons (b := 0) h).1
  exact unpack_eq_ok.2 ⟨by rw [h0]; exact lpa_zero W, ha, (payloadOf_packOvf hQ h).symm⟩

end Sys2Proof.Machine
end

