-- ==== Sys2Proof/Laws/Codec.lean ====
section
/-! SUPPORT. The class search, the encoder, the decoder and the packer as operations: what each answers, and when
(R58, R67, R68, R73). -/

namespace Sys2Proof.Machine

open Sys2Proof.Safety

/-! ## The class search -/

/-- A value in the range of marker class `L` is found in that class (R67). -/
theorem classOf_marker {W : Width} {v L : Nat} (h1 : 1 ≤ L) (hL : L ≤ nmark W) (hlo : base L ≤ v)
    (hhi : v < base (L + 1)) : classOf W v = (L, .marker) := by
  have hf : (List.range (nmark W)).find? (fun k => v < base (k + 2)) = some (L - 1) := by
    rw [List.find?_range_eq_some]
    refine ⟨by simpa [show L - 1 + 2 = L + 1 by omega] using hhi, by simp; omega, fun j hj => ?_⟩
    have := base_mono (L := j + 2) (L' := L) (by omega)
    simp
    omega
  simp [classOf, hf, show L - 1 + 1 = L by omega]

/-- A value at or above `OB(W)` is in the overflow class (R67). -/
theorem classOf_overflow {W : Width} {v : Nat} (h : ovfBase W ≤ v) : classOf W v = (maxBytes W, .overflow) := by
  have hf : (List.range (nmark W)).find? (fun k => v < base (k + 2)) = none := by
    rw [List.find?_eq_none]
    intro k hk
    have hk := List.mem_range.1 hk
    have := base_mono (L := k + 2) (L' := nmark W + 1) (by omega)
    simp only [ovfBase] at h
    simp
    omega
  simp [classOf, hf]

/-- Every value below `OB(W)` lies in the range of a marker class (R34). -/
theorem exists_class {W : Width} {v : Nat} (h : v < ovfBase W) :
    ∃ L, 1 ≤ L ∧ L ≤ nmark W ∧ base L ≤ v ∧ v < base (L + 1) := by
  have key : ∀ n, v < base (n + 1) → ∃ L, 1 ≤ L ∧ L ≤ n ∧ base L ≤ v ∧ v < base (L + 1) := by
    intro n
    induction n with
    | zero => intro h; simp at h
    | succ n ih =>
      intro h
      by_cases hn : v < base (n + 1)
      · obtain ⟨L, h1, h2, h3⟩ := ih hn
        exact ⟨L, h1, by omega, h3⟩
      · exact ⟨n + 1, by omega, Nat.le_refl _, by omega, h⟩
  exact key _ h

/-- The class of a value, whichever it is (R34, R67). -/
theorem class_cases (W : Width) (v : Nat) :
    (∃ L, 1 ≤ L ∧ L ≤ nmark W ∧ base L ≤ v ∧ v < base (L + 1) ∧ classOf W v = (L, .marker)) ∨
    (ovfBase W ≤ v ∧ classOf W v = (maxBytes W, .overflow)) := by
  rcases Nat.lt_or_ge v (ovfBase W) with h | h
  · obtain ⟨L, h1, h2, h3, h4⟩ := exists_class h
    exact .inl ⟨L, h1, h2, h3, h4, classOf_marker h1 h2 h3 h4⟩
  · exact .inr ⟨h, classOf_overflow h⟩

/-! ## The canonical form -/

theorem canonicalForm_marker {W : Width} {v L : Nat} (h1 : 1 ≤ L) (hL : L ≤ nmark W) (hlo : base L ≤ v)
    (hhi : v < base (L + 1)) : canonicalForm W v = packMarker L (v - base L) := by
  simp [canonicalForm, classOf_marker h1 hL hlo hhi]

theorem canonicalForm_overflow {W : Width} {v : Nat} (h : ovfBase W ≤ v) :
    canonicalForm W v = packOvf W (v - ovfBase W) := by
  simp [canonicalForm, classOf_overflow h]

/-- The payload of a value fits the field of its marker class (R68). -/
theorem marker_payload_fits {v L : Nat} (h1 : 1 ≤ L) (hhi : v < base (L + 1)) : v - base L < 2 ^ (7 * L) := by
  rw [base_succ h1] at hhi
  have := Nat.two_pow_pos (7 * L)
  omega

/-- The payload of a value in range fits the overflow field (R68). -/
theorem overflow_payload_fits {W : Width} {v : Nat} (hv : inRangeU W v) : v - ovfBase W < 256 ^ (maxBytes W - 1) := by
  have := two_pow_bits_le W
  have hp : 0 < 2 ^ W.bits := Nat.two_pow_pos _
  simp only [inRangeU] at hv
  omega

theorem length_canonicalForm (W : Width) (v : Nat) :
    1 ≤ (canonicalForm W v).length ∧ (canonicalForm W v).length ≤ maxBytes W := by
  rcases class_cases W v with ⟨L, h1, h2, h3, h4, _⟩ | ⟨h, _⟩
  · rw [canonicalForm_marker h1 h2 h3 h4, length_packMarker _ h1]
    have := nmark_lt_maxBytes W
    omega
  · rw [canonicalForm_overflow h, length_packOvf]
    cases W <;> decide

/-- `lpa` finds the length of a canonical form in its first byte (R72 b). -/
theorem lpa_canonicalForm (W : Width) (v : Nat) :
    ∃ f, lpa W ((canonicalForm W v).getD 0 0) = .ok ((canonicalForm W v).length, f) := by
  rcases class_cases W v with ⟨L, h1, h2, h3, h4, _⟩ | ⟨h, _⟩
  · have h8 := Nat.le_trans h2 (nmark_le W)
    have hM := nmark_lt_maxBytes W
    rw [canonicalForm_marker h1 h2 h3 h4, length_packMarker _ h1]
    exact ⟨_, lpa_marker (clz8_packMarker _ h1 h8) h1 h8 (by omega)⟩
  · rw [canonicalForm_overflow h, length_packOvf]
    exact ⟨_, lpa_zero W⟩

/-! ## The encoder and the decoder -/

theorem encU_ok {W : Width} {v : Nat} (h : inRangeU W v) : encU W v = .ok (canonicalForm W v) := if_pos h
theorem encU_error {W : Width} {v : Nat} (h : ¬ inRangeU W v) : encU W v = .error .outOfRange := if_neg h

/-- The value `dec_u` finds is the class base plus the payload, when it is in range (R73). -/
theorem decU_form {W : Width} {w : Window} {avail L : Nat} {f : Form} (h : lpa W (w.byte 0) = .ok (L, f))
    (hL : L ≤ avail) :
    decU W w avail = if inRangeU W (cbase W L + payloadOf f L w) then .ok (cbase W L + payloadOf f L w, L)
      else .error .outOfRange := by
  simp only [decU, unpack_form h hL, inRangeU]
  split <;> split <;> first | rfl | omega

theorem decU_unpack_error {W : Width} {w : Window} {avail : Nat} {k : ErrorKind} (h : unpack W w avail = .error k) :
    decU W w avail = .error k := by
  simp [decU, h]

/-- All `dec_u` can answer when it succeeds (R73). -/
theorem decU_eq_ok {W : Width} {w : Window} {avail v L : Nat} (h : decU W w avail = .ok (v, L)) :
    ∃ f, lpa W (w.byte 0) = .ok (L, f) ∧ L ≤ avail ∧ v = cbase W L + payloadOf f L w ∧ inRangeU W v := by
  cases e : unpack W w avail with
  | error k => rw [decU_unpack_error e] at h; cases h
  | ok a =>
    obtain ⟨L', f, pay⟩ := a
    obtain ⟨hl, ha, rfl⟩ := unpack_eq_ok.1 e
    rw [decU_form hl ha] at h
    split at h
    · rename_i hr
      cases h
      exact ⟨f, hl, ha, rfl, hr⟩
    · cases h

theorem decU_congr {W : Width} {w w' : Window} {avail : Nat} (h : unpack W w avail = unpack W w' avail) :
    decU W w avail = decU W w' avail := by
  simp [decU, h]

/-- Decoding what the encoder wrote gives the value back, whatever follows the form (R78). -/
theorem decU_canonicalForm {W : Width} {w : Window} {avail v : Nat} (hv : inRangeU W v)
    (h : StartsWith w (canonicalForm W v)) (ha : (canonicalForm W v).length ≤ avail) :
    decU W w avail = .ok (v, (canonicalForm W v).length) := by
  rcases class_cases W v with ⟨L, h1, h2, h3, h4, _⟩ | ⟨ho, _⟩
  · have h8 := Nat.le_trans h2 (nmark_le W)
    have hM := nmark_lt_maxBytes W
    rw [canonicalForm_marker h1 h2 h3 h4] at h ha ⊢
    rw [length_packMarker _ h1] at ha ⊢
    have hu := unpack_packMarker (W := W) h1 h8 (by omega) (marker_payload_fits h1 h4) h ha
    obtain ⟨hl, _, hp⟩ := unpack_eq_ok.1 hu
    have hs : cbase W L + payloadOf .marker L w = v := by rw [← hp, cbase_of_le (by omega)]; omega
    rw [decU_form hl ha, hs, if_pos hv]
  · rw [canonicalForm_overflow ho] at h ha ⊢
    rw [length_packOvf] at ha ⊢
    have hu := unpack_packOvf (overflow_payload_fits hv) h ha
    obtain ⟨hl, _, hp⟩ := unpack_eq_ok.1 hu
    have hs : cbase W (maxBytes W) + payloadOf .overflow (maxBytes W) w = v := by
      rw [← hp, cbase_maxBytes]; omega
    rw [decU_form hl ha, hs, if_pos hv]

/-- Encoding what the decoder read gives the bytes back, but for the marker form of length 5 at width 32, which the
encoder never writes (R41 c, R78). -/
theorem canonicalForm_decU {W : Width} {w : Window} {avail v L : Nat} (h : decU W w avail = .ok (v, L))
    (hne : ¬ (W = .w32 ∧ clz8 (w.byte 0) = 4)) : canonicalForm W v = w.memRead 0 L := by
  obtain ⟨f, hl, _, rfl, _⟩ := decU_eq_ok h
  obtain ⟨h1, hM, hm, ho⟩ := lpa_length hl
  cases f with
  | marker =>
    obtain ⟨h8, hz⟩ := hm rfl
    have hn : L ≤ nmark W := by
      cases W with
      | w32 =>
        have : L ≠ 5 := fun e => hne ⟨rfl, by omega⟩
        simp [maxBytes, nmark] at hM ⊢
        omega
      | w64 => simp [nmark, maxBytes]; omega
      | w128 => simp [nmark, maxBytes]; omega
    have hp := payloadOf_marker_lt w h1 h8
    rw [cbase_of_le (by omega), canonicalForm_marker h1 hn (by omega) (by rw [base_succ h1]; omega),
      Nat.add_sub_cancel_left, packMarker_payloadOf h1 h8 hz]
  | overflow =>
    obtain ⟨rfl, h0⟩ := ho rfl
    rw [cbase_maxBytes, canonicalForm_overflow (by omega), Nat.add_sub_cancel_left, packOvf_payloadOf h0]

/-! ## The packer -/

theorem packForm_marker {W : Width} {L P : Nat} (h1 : 1 ≤ L) (hL : L ≤ nmark W) (hP : P < 2 ^ (7 * L)) :
    packForm W L P = .ok (packMarker L P) := by
  simp [packForm, h1, hL, Nat.not_le.2 hP]

theorem packForm_overflow {W : Width} {P : Nat} (hP : P < 2 ^ (8 * (maxBytes W - 1))) :
    packForm W (maxBytes W) P = .ok (packOvf W P) := by
  have := nmark_lt_maxBytes W
  simp [packForm, Nat.not_le.2 this, Nat.not_le.2 hP]

/-- All PACK's computation can answer (R58). -/
theorem packForm_cases (W : Width) (L P : Nat) :
    (1 ≤ L ∧ L ≤ nmark W ∧ P < 2 ^ (7 * L) ∧ packForm W L P = .ok (packMarker L P)) ∨
    (L = maxBytes W ∧ P < 2 ^ (8 * (maxBytes W - 1)) ∧ packForm W L P = .ok (packOvf W P)) ∨
    (packForm W L P = .error .outOfRange ∧
      ((1 ≤ L ∧ L ≤ nmark W ∧ 2 ^ (7 * L) ≤ P) ∨ (L = maxBytes W ∧ 2 ^ (8 * (maxBytes W - 1)) ≤ P))) ∨
    (packForm W L P = .error .invalidPrefix ∧ ¬ (1 ≤ L ∧ L ≤ nmark W) ∧ L ≠ maxBytes W) := by
  by_cases hm : 1 ≤ L ∧ L ≤ nmark W
  · by_cases hP : P < 2 ^ (7 * L)
    · exact .inl ⟨hm.1, hm.2, hP, packForm_marker hm.1 hm.2 hP⟩
    · exact .inr (.inr (.inl ⟨by simp [packForm, hm, Nat.not_lt.1 hP], .inl ⟨hm.1, hm.2, Nat.not_lt.1 hP⟩⟩))
  · by_cases hL : L = maxBytes W
    · subst hL
      by_cases hP : P < 2 ^ (8 * (maxBytes W - 1))
      · exact .inr (.inl ⟨rfl, hP, packForm_overflow hP⟩)
      · exact .inr (.inr (.inl ⟨by simp [packForm, hm, Nat.not_lt.1 hP], .inr ⟨rfl, Nat.not_lt.1 hP⟩⟩))
    · exact .inr (.inr (.inr ⟨by simp [packForm, hm, hL], hm, hL⟩))

/-! ## UNPACK -/

theorem unpackPayload_form {W : Width} {w : Window} {avail L : Nat} {f : Form} (h : lpa W (w.byte 0) = .ok (L, f))
    (hL : L ≤ avail) :
    unpackPayload W w avail = if 2 ^ 128 ≤ payloadOf f L w then .error .outOfRange else .ok (payloadOf f L w, L) := by
  simp only [unpackPayload, unpack_form h hL]

theorem unpackPayload_error {W : Width} {w : Window} {avail : Nat} {k : ErrorKind} (h : unpack W w avail = .error k) :
    unpackPayload W w avail = .error k := by
  simp [unpackPayload, h]

end Sys2Proof.Machine
end

