-- ==== Sys2Proof/Laws/Exec.lean ====
section
/-! SUPPORT. What one step can do, said once: every instruction answers a next state that differs in the response
ports alone, and the response is a function of the request (R12). Then each family's meaning at a width. -/

namespace Sys2Proof.Machine

open Sys2Proof.Safety

/-- The response of an instruction to a request: `F` of R12, as the meanings compute it. -/
def responseTo (i : Instr) (q : Request) : Response :=
  match exec i ⟨q, Response.atReset⟩ with
  | .next t => t.resp
  | .fault _ => Response.atReset
  | .refused _ => Response.atReset

/-- Every instruction completes, keeps the request, and answers what the request alone decides (R12). -/
theorem exec_eq (i : Instr) (s : State) : exec i s = .next { s with resp := responseTo i s.req } := by
  cases i <;> rfl

theorem answers_iff {i : Instr} {s : State} {r : Response} : Answers i s r ↔ responseTo i s.req = r := by
  simp [Answers, exec_eq]

theorem exec_eq_next {i : Instr} {s t : State} : exec i s = .next t ↔ t = { s with resp := responseTo i s.req } := by
  simp [exec_eq, eq_comm]

theorem step_of_decode {s : State} {i : Instr} (h : decode s.req.cmd = .ok i) : step s = exec i s := by
  simp [step, h]

/-- A step that answers ran a command (R12, R32). -/
theorem step_eq_next {s t : State} (h : step s = .next t) :
    ∃ i, decode s.req.cmd = .ok i ∧ t = { s with resp := responseTo i s.req } := by
  unfold step at h
  split at h
  · rename_i i e
    exact ⟨i, e, exec_eq_next.1 h⟩
  · cases h

/-- `F` of a request whose command word decodes is what the operation answers (R12). -/
theorem response_of_decode {q : Request} {i : Instr} (h : decode q.cmd = .ok i) : q.response = some (responseTo i q) := by
  have hs : step ⟨q, Response.atReset⟩ = exec i ⟨q, Response.atReset⟩ := step_of_decode h
  simp [Request.response, hs, exec_eq]

/-- `F` gives no response for a reserved command word (R32). -/
theorem response_of_reserved {q : Request} {why : Reserved} (h : decode q.cmd = .error why) : q.response = none := by
  simp [Request.response, step, h]

/-! ## The response of each family at a width -/

@[simp] theorem responseTo_peek (W : Width) (q : Request) :
    responseTo (.peek W) q = deliver (fun a => okLength a.1) (lpa W q.firstByte) := by cases W <;> rfl

@[simp] theorem responseTo_pack (W : Width) (q : Request) :
    responseTo (.pack W) q = deliver okForm (packForm W q.classLength q.valUnsigned) := by cases W <;> rfl

@[simp] theorem responseTo_unpack (W : Width) (q : Request) :
    responseTo (.unpack W) q = deliver (fun a => okValue (ofUnsigned a.1) a.2) (unpackPayload W q.winIn q.avail) := by
  cases W <;> rfl

@[simp] theorem responseTo_encU (W : Width) (q : Request) :
    responseTo (.encU W) q = deliver okForm (encU W q.valUnsigned) := by cases W <;> rfl

@[simp] theorem responseTo_encS (W : Width) (q : Request) :
    responseTo (.encS W) q = deliver okForm (encS W q.valSigned) := by cases W <;> rfl

@[simp] theorem responseTo_decU (W : Width) (q : Request) :
    responseTo (.decU W) q = deliver (fun a => okValue (ofUnsigned a.1) a.2) (decU W q.winIn q.avail) := by
  cases W <;> rfl

@[simp] theorem responseTo_decS (W : Width) (q : Request) :
    responseTo (.decS W) q = deliver (fun a => okValue (ofSigned a.1) a.2) (decS W q.winIn q.avail) := by
  cases W <;> rfl

@[simp] theorem responseTo_zz (W : Width) (q : Request) :
    responseTo (.zz W) q = deliver (fun u => okValue (ofUnsigned u) 0) (zz W q.valSigned) := by cases W <;> rfl

@[simp] theorem responseTo_unzz (W : Width) (q : Request) :
    responseTo (.unzz W) q = deliver (fun n => okValue (ofSigned n) 0) (unzz W q.valUnsigned) := by cases W <;> rfl

/-- A command is one of the nine families at a width (R31). -/
theorem command_cases {i : Instr} (h : i.isCommand = true) :
    ∃ W, i = .encU W ∨ i = .encS W ∨ i = .decU W ∨ i = .decS W ∨ i = .peek W ∨ i = .zz W ∨ i = .unzz W ∨
      i = .pack W ∨ i = .unpack W := by
  cases i <;> first
    | exact absurd h Bool.false_ne_true
    | exact ⟨.w32, by decide⟩
    | exact ⟨.w64, by decide⟩
    | exact ⟨.w128, by decide⟩

/-! ## Writing a form -/

/-- A response built of a form has the form's bytes and zeros after them (R16, R24). -/
theorem writes_okForm {i : Instr} {s : State} {out : List Byte} (h : responseTo i s.req = okForm out)
    (hl : out.length ≤ 18) : Writes i s out.length fun k => (out.getD k 0).toNat := by
  refine ⟨okForm out, answers_iff.2 h, rfl, rfl, ?_, fun k hk => ?_, fun k h1 h2 => ?_⟩
  · simp
    omega
  · simp [byte_memWrite out (Nat.lt_of_lt_of_le hk hl)]
  · simp [byte_memWrite out h2, h1]

theorem raises_iff {i : Instr} {s : State} {k : ErrorKind} : Raises i s k ↔ responseTo i s.req = raise k := answers_iff

theorem returns_iff {i : Instr} {s : State} {v : Value} {L : Nat} :
    Returns i s v L ↔ responseTo i s.req = okValue v L := answers_iff

end Sys2Proof.Machine
end

