-- ==== Sys2Proof/Laws/Zigzag.lean ====
section
/-! SUPPORT. The zigzag transform on bit vectors is the arithmetic of R81 and R82, and the two are inverse (R83). -/

namespace Sys2Proof.Machine

open Sys2Proof.Safety

theorem bits_pos (W : Width) : 0 < W.bits := by cases W <;> decide
theorem bits_le (W : Width) : W.bits ≤ 128 := by cases W <;> decide

/-- The arithmetic shift by all but one bit copies the sign into every position (R81). -/
theorem sshiftRight_sign {n : Nat} (x : BitVec (n + 1)) : x.sshiftRight n = if x.msb then BitVec.allOnes (n + 1) else 0#(n + 1) := by
  apply BitVec.eq_of_getElem_eq
  intro i hi
  rw [BitVec.getElem_sshiftRight]
  by_cases hx : x.msb
  · by_cases h0 : n + i < n + 1
    · have : i = 0 := by omega
      subst this
      simp [hx]
      simpa [BitVec.msb_eq_getLsbD_last] using hx
    · simp [hx, h0]
  · by_cases h0 : n + i < n + 1
    · have : i = 0 := by omega
      subst this
      simp [hx]
      simpa [BitVec.msb_eq_getLsbD_last] using hx
    · simp [hx, h0]

theorem zigzagBits_toNat {n : Nat} (x : BitVec (n + 1)) :
    (zigzagBits x).toNat = if x.msb then 2 * (2 ^ (n + 1) - x.toNat) - 1 else 2 * x.toNat := by
  have hx := x.isLt
  have hm := BitVec.msb_eq_decide x
  have h2 : 2 ^ (n + 1) = 2 * 2 ^ n := by rw [Nat.pow_succ, Nat.mul_comm]
  simp only [Nat.add_sub_cancel] at hm
  unfold zigzagBits
  rw [Nat.add_sub_cancel, sshiftRight_sign]
  by_cases h : x.msb
  · have hge : 2 ^ n ≤ x.toNat := by simpa [hm] using h
    rw [if_pos h, if_pos h, BitVec.xor_allOnes, BitVec.toNat_not, BitVec.toNat_shiftLeft, Nat.shiftLeft_eq,
      Nat.pow_one, Nat.mod_eq_sub_mod (by omega), Nat.mod_eq_of_lt (by omega)]
    omega
  · have hlt : x.toNat < 2 ^ n := by simpa [hm] using h
    rw [if_neg h, if_neg h, BitVec.xor_zero, BitVec.toNat_shiftLeft, Nat.shiftLeft_eq, Nat.pow_one,
      Nat.mod_eq_of_lt (by omega)]
    omega

theorem unzigzagBits_toInt {n : Nat} (u : BitVec (n + 1)) : (unzigzagBits u).toInt = unzigzagInt u.toNat := by
  have hu := u.isLt
  have h2 : 2 ^ (n + 1) = 2 * 2 ^ n := by rw [Nat.pow_succ, Nat.mul_comm]
  have hs : (u >>> 1).toNat = u.toNat / 2 := by simp [BitVec.toNat_ushiftRight, Nat.shiftRight_eq_div_pow]
  have hi : (u >>> 1).toInt = (u.toNat / 2 : Nat) := by
    rw [BitVec.toInt_eq_toNat_of_lt (by rw [hs]; omega), hs]
  have ha : (u &&& 1#(n + 1)).toNat = u.toNat % 2 := by
    have h1 : (1#(n + 1)).toNat = 1 := by simp
    rw [BitVec.toNat_and, h1, Nat.and_one_is_mod]
  unfold unzigzagBits unzigzagInt
  by_cases h : u.toNat % 2 = 0
  · have e : u &&& 1#(n + 1) = 0#(n + 1) := BitVec.eq_of_toNat_eq (by rw [ha, h]; simp)
    rw [if_pos h, e, BitVec.neg_zero, BitVec.xor_zero, hi]
  · have h1 : u.toNat % 2 = 1 := by omega
    have e : u &&& 1#(n + 1) = 1#(n + 1) := BitVec.eq_of_toNat_eq (by rw [ha, h1]; simp)
    have hn : (~~~(u >>> 1)).toNat = 2 ^ (n + 1) - 1 - u.toNat / 2 := by rw [BitVec.toNat_not, hs]
    rw [if_neg h, e, BitVec.neg_one_eq_allOnes, BitVec.xor_allOnes, BitVec.toInt_eq_toNat_cond, hn,
      if_neg (by omega), h2]
    omega

/-! ## The transform of an integer in range -/

/-- `zigzag_W(n)` is `2n` or `-2n - 1` (R81). -/
theorem zigzag_eq {W : Width} {n : Int} (h : inRangeS W n) : (zigzag W n : Int) = zigzagInt n := by
  obtain ⟨m, hm⟩ : ∃ m, W.bits = m + 1 := ⟨W.bits - 1, by have := bits_pos W; omega⟩
  have h2 : (2 : Int) ^ (m + 1) = 2 * 2 ^ m := by rw [pow_succ, mul_comm]
  obtain ⟨hlo, hhi⟩ := h
  unfold zigzag zigzagInt
  rw [hm] at hlo hhi ⊢
  simp only [Nat.add_sub_cancel] at hlo hhi
  have hi : (BitVec.ofInt (m + 1) n).toInt = n := BitVec.toInt_ofInt_eq_self (by omega) (by simpa using hlo) (by simp only [Nat.add_sub_cancel]; omega)
  have hmsb := BitVec.msb_eq_toInt (x := BitVec.ofInt (m + 1) n)
  have ht : ((BitVec.ofInt (m + 1) n).toNat : Int) = n % 2 ^ (m + 1) := by
    rw [BitVec.toNat_ofInt, Int.toNat_of_nonneg (Int.emod_nonneg _ (by positivity))]
    push_cast
    rfl
  rw [hi] at hmsb
  have hpos : (0 : Int) < 2 ^ m := by positivity
  rw [zigzagBits_toNat, hmsb]
  by_cases hn : 0 ≤ n
  · rw [Int.emod_eq_of_lt hn (by omega)] at ht
    rw [if_pos hn, if_neg (by simpa using hn)]
    push_cast
    omega
  · have hmod : n % 2 ^ (m + 1) = n + 2 ^ (m + 1) := by
      rw [← Int.add_emod_right, Int.emod_eq_of_lt (by omega) (by omega)]
    rw [hmod] at ht
    have hle : (BitVec.ofInt (m + 1) n).toNat ≤ 2 ^ (m + 1) := (BitVec.isLt _).le
    have hp : ((2 ^ (m + 1) : Nat) : Int) = 2 ^ (m + 1) := by push_cast; rfl
    rw [if_neg hn, if_pos (by simpa using hn)]
    omega

/-- `unzigzag_W(u)` is `u / 2` or `-(u + 1) / 2` (R82). -/
theorem unzigzag_eq {W : Width} {u : Nat} (h : inRangeU W u) : unzigzag W u = unzigzagInt u := by
  obtain ⟨m, hm⟩ : ∃ m, W.bits = m + 1 := ⟨W.bits - 1, by have := bits_pos W; omega⟩
  have hlt : u < 2 ^ W.bits := by
    have := Nat.two_pow_pos W.bits
    simp only [inRangeU] at h
    omega
  unfold unzigzag
  rw [hm] at hlt ⊢
  rw [unzigzagBits_toInt, BitVec.toNat_ofNat, Nat.mod_eq_of_lt hlt]

/-! ## The arithmetic of the transform -/

theorem zigzagInt_nonneg (n : Int) : 0 ≤ zigzagInt n := by
  unfold zigzagInt
  split <;> omega

theorem unzigzagInt_zigzagInt {n : Int} {u : Nat} (h : (u : Int) = zigzagInt n) : unzigzagInt u = n := by
  unfold zigzagInt at h
  unfold unzigzagInt
  split at h <;> split <;> omega

theorem zigzagInt_unzigzagInt (u : Nat) : zigzagInt (unzigzagInt u) = u := by
  unfold zigzagInt unzigzagInt
  split <;> split <;> omega

/-- A zigzag image is in the unsigned range (R83). -/
theorem zigzag_inRange (W : Width) (n : Int) : inRangeU W (zigzag W n) := by
  have := (zigzagBits (BitVec.ofInt W.bits n)).isLt
  simp only [inRangeU, zigzag]
  omega

theorem unzigzag_inRange {W : Width} {u : Nat} (h : inRangeU W u) : inRangeS W (unzigzag W u) := by
  rw [unzigzag_eq h]
  obtain ⟨m, hm⟩ : ∃ m, W.bits = m + 1 := ⟨W.bits - 1, by have := bits_pos W; omega⟩
  have h2 : 2 ^ (m + 1) = 2 * 2 ^ m := by rw [Nat.pow_succ, Nat.mul_comm]
  have hp : ((2 ^ m : Nat) : Int) = 2 ^ m := by push_cast; rfl
  have := Nat.two_pow_pos m
  simp only [inRangeU, inRangeS, hm, Nat.add_sub_cancel] at h ⊢
  unfold unzigzagInt
  rw [← hp]
  split <;> omega

/-- The two transforms are inverse (R83). -/
theorem unzigzag_zigzag {W : Width} {n : Int} (h : inRangeS W n) : unzigzag W (zigzag W n) = n := by
  rw [unzigzag_eq (zigzag_inRange W n)]
  exact unzigzagInt_zigzagInt (zigzag_eq h)

theorem zigzag_unzigzag {W : Width} {u : Nat} (h : inRangeU W u) : zigzag W (unzigzag W u) = u := by
  have := zigzag_eq (unzigzag_inRange h)
  rw [unzigzag_eq h, zigzagInt_unzigzagInt] at this
  rw [unzigzag_eq h]
  exact_mod_cast this

/-! ## The operations of the unit (R84, R88) -/

theorem zz_ok {W : Width} {n : Int} (h : inRangeS W n) : zz W n = .ok (zigzag W n) := if_pos h
theorem zz_error {W : Width} {n : Int} (h : ¬ inRangeS W n) : zz W n = .error .outOfRange := if_neg h
theorem unzz_ok {W : Width} {u : Nat} (h : inRangeU W u) : unzz W u = .ok (unzigzag W u) := if_pos h
theorem unzz_error {W : Width} {u : Nat} (h : ¬ inRangeU W u) : unzz W u = .error .outOfRange := if_neg h

/-- ENC signed is ENC unsigned of the zigzag image, whose range test cannot fail (R92). -/
theorem encS_ok {W : Width} {n : Int} (h : inRangeS W n) : encS W n = .ok (canonicalForm W (zigzag W n)) := by
  have hu : encU W (zigzag W n) = .ok (canonicalForm W (zigzag W n)) := if_pos (zigzag_inRange W n)
  simp [encS, zz_ok h, hu]

theorem encS_error {W : Width} {n : Int} (h : ¬ inRangeS W n) : encS W n = .error .outOfRange := by
  simp [encS, zz_error h]

/-- DEC signed is the inverse transform of DEC unsigned (R96). -/
theorem decS_ok {W : Width} {w : Window} {avail u L : Nat} (h : decU W w avail = .ok (u, L)) :
    decS W w avail = .ok (unzigzag W u, L) := by
  simp [decS, h]

theorem decS_error {W : Width} {w : Window} {avail : Nat} {k : ErrorKind} (h : decU W w avail = .error k) :
    decS W w avail = .error k := by
  simp [decS, h]

/-! ## Values on the port (R15) -/

theorem ofUnsigned_toNat {W : Width} {v : Nat} (h : inRangeU W v) : (ofUnsigned v).toNat = v := by
  have hp : 2 ^ W.bits ≤ 2 ^ 128 := Nat.pow_le_pow_right (by decide) (bits_le W)
  have hq := Nat.two_pow_pos W.bits
  simp only [inRangeU] at h
  simp only [ofUnsigned, BitVec.toNat_ofNat]
  exact Nat.mod_eq_of_lt (by omega)

theorem inRangeS_128 {W : Width} {n : Int} (h : inRangeS W n) : -2 ^ 127 ≤ n ∧ n < 2 ^ 127 := by
  cases W <;> simp only [inRangeS, Width.bits] at h <;> omega

theorem ofSigned_toInt {W : Width} {n : Int} (h : inRangeS W n) : (ofSigned n).toInt = n :=
  BitVec.toInt_ofInt_eq_self (by decide) (inRangeS_128 h).1 (inRangeS_128 h).2

theorem ofSigned_toInt_self (v : Value) : ofSigned v.toInt = v := BitVec.ofInt_toInt

theorem ofUnsigned_toNat_self (v : Value) : ofUnsigned v.toNat = v := BitVec.ofNat_toNat 128 v |>.trans (by simp)

theorem inRangeU_128 (v : Value) : inRangeU .w128 v.toNat := by
  have := v.isLt
  simp only [inRangeU, Width.bits]
  omega

theorem inRangeS_128_self (v : Value) : inRangeS .w128 v.toInt := by
  have h1 := BitVec.le_toInt v
  have h2 := BitVec.toInt_lt (x := v)
  simp only [inRangeS, Width.bits]
  omega

end Sys2Proof.Machine
end

