-- ==== Sys2Proof/Laws/Answers.lean ====
section
/-! SUPPORT. Between what an operation answers and the computations of the units: each response taken apart into the
computation that succeeded, and each form laid on the ports. -/

namespace Sys2Proof.Machine

open Sys2Proof.Safety

/-- R36's range of first bytes is the leading zero count the analyzer takes (R50). -/
theorem markerPrefix_iff_clz8 {L : Nat} {b : Byte} : MarkerPrefix L b ↔ 1 ≤ L ∧ L ≤ 8 ∧ clz8 b = L - 1 := by
  unfold MarkerPrefix
  constructor
  · rintro ⟨h1, h8, h⟩
    refine ⟨h1, h8, (clz8_eq_iff b (by omega)).2 ?_⟩
    rw [show 7 - (L-1) = 8 - L by omega, show 8 - (L-1) = 9 - L by omega]; exact h
  · rintro ⟨h1, h8, h⟩
    have := (clz8_eq_iff b (z := L-1) (by omega)).1 h
    rw [show 7 - (L-1) = 8 - L by omega, show 8 - (L-1) = 9 - L by omega] at this
    exact ⟨h1, h8, this⟩

/-- R21. -/
theorem avail_eq (s : State) : s.req.avail = min s.req.availIn.toNat 18 := rfl

/-- A count of valid bytes that is not zero is not zero after saturation (R21). -/
theorem avail_ne_zero {s : State} (h : s.req.availIn ≠ 0) : s.req.avail ≠ 0 := by
  have : s.req.availIn.toNat ≠ 0 := fun e => h (BitVec.eq_of_toNat_eq e)
  rw [avail_eq]; omega

/-- A length fits the 5-bit port (R14). -/
theorem toNat_ofNat_five {L : Nat} (h : L ≤ 18) : (BitVec.ofNat 5 L).toNat = L := by simp; omega

/-- The byte count of a form on its port (R24). -/
theorem okForm_lenOut_toNat {out : List Byte} (h : out.length ≤ 18) : (okForm out).lenOut.toNat = out.length := by
  simp; omega

/-- A response built of a form writes the bytes that are known of the form. -/
theorem writes_of_okForm {i : Instr} {s : State} {out : List Byte} {L : Nat} {f : Nat → Nat} (h : responseTo i s.req = okForm out)
    (hl : out.length = L) (h18 : L ≤ 18) (hf : ∀ k, k < L → (out.getD k 0).toNat = f k) : Writes i s L f := by
  subst hl
  obtain ⟨r, h1, h2, h3, h4, h5, h6⟩ := writes_okForm h h18
  exact ⟨r, h1, h2, h3, h4, fun k hk => (h5 k hk).trans (hf k hk), h6⟩

/-- A response built of the bytes read off a window writes those bytes. -/
theorem writes_memRead {i : Instr} {s : State} {w : Window} {L : Nat} (hL : L ≤ 18)
    (h : responseTo i s.req = okForm (w.memRead 0 L)) : Writes i s L fun k => (w.byte k).toNat :=
  writes_of_okForm h (length_memRead _ _ _) hL fun k hk => by rw [getD_memRead w 0 hk, Nat.zero_add]

/-- UNPACK and both decoders hand on the error of `unpack` (R57, R73, R96). -/
theorem raises_of_unpack_error {W : Width} {s : State} {i : Instr} {k : ErrorKind} (hi : i = .unpack W ∨ i = .decU W ∨ i = .decS W)
    (h : unpack W s.req.winIn s.req.avail = .error k) : Raises i s k := by
  apply raises_iff.2
  rcases hi with rfl | rfl | rfl
  · rw [responseTo_unpack, unpackPayload_error h]; rfl
  · rw [responseTo_decU, decU_unpack_error h]; rfl
  · rw [responseTo_decS]; simp [decS, decU_unpack_error h]

/-- A delivered computation with the status `OK` succeeded (R106). -/
theorem exists_ok_of_deliver_ok {α : Type} {f : α → Response} {x : Except ErrorKind α} (h : (deliver f x).status = .ok) : ∃ a, x = .ok a := by
  cases x with
  | ok a => exact ⟨a, rfl⟩
  | error k => cases h

/-- A window that agrees with a written one on the form starts with the form. -/
theorem startsWith_of_samePrefix {w w' : Window} {out : List Byte} (hl : out.length ≤ 18) (hw : w' = Window.memWrite out) (h : SamePrefix out.length w w') :
    StartsWith w out := by
  subst hw
  intro k hk
  rw [h k hk, byte_memWrite out (by omega)]

/-- All UNPACK can answer when it succeeds (R62). -/
theorem unpackPayload_eq_ok {W : Width} {w : Window} {avail pay L : Nat} (h : unpackPayload W w avail = .ok (pay, L)) :
    ∃ f, lpa W (w.byte 0) = .ok (L, f) ∧ L ≤ avail ∧ pay = payloadOf f L w ∧ pay < 2 ^ 128 := by
  cases e : unpack W w avail with
  | error k => rw [unpackPayload_error e] at h; cases h
  | ok a =>
    obtain ⟨L', f, p⟩ := a
    obtain ⟨hl, ha, rfl⟩ := unpack_eq_ok.1 e
    rw [unpackPayload_form hl ha] at h
    split at h
    · cases h
    · cases h; exact ⟨f, hl, ha, rfl, by omega⟩

/-- The length of the class a value lies in is the one the class search finds (R34, R67). -/
theorem inClass_length_eq {W : Width} {v L : Nat} (h : InClass W v L) : L = (classOf W v).1 := by
  rcases h with ⟨h1, h2, h3, h4⟩ | ⟨h1, h2, _⟩
  · rw [classOf_marker h1 h2 h3 h4]
  · rw [classOf_overflow h2, h1]

/-- The class search finds a class the value lies in (R34, R67). -/
theorem inClass_classOf {W : Width} {v : Nat} (hv : inRangeU W v) : InClass W v (classOf W v).1 := by
  rcases class_cases W v with ⟨L, h1, h2, h3, h4, e⟩ | ⟨h, e⟩
  · rw [e]; exact .inl ⟨h1, h2, h3, h4⟩
  · rw [e]; exact .inr ⟨rfl, h, hv⟩

/-- A value below the end of a marker class is below the overflow class (R34). -/
theorem lt_ovfBase {W : Width} {v L : Nat} (hL : L ≤ nmark W) (h : v < base (L+1)) : v < ovfBase W :=
  Nat.lt_of_lt_of_le h (base_mono (by omega))

/-- The canonical form has the length of the class (R40). -/
theorem length_canonicalForm_eq (W : Width) (v : Nat) : (canonicalForm W v).length = (classOf W v).1 := by
  rcases class_cases W v with ⟨L, h1, h2, h3, h4, e⟩ | ⟨h, e⟩
  · rw [canonicalForm_marker h1 h2 h3 h4, e, length_packMarker _ h1]
  · rw [canonicalForm_overflow h, e, length_packOvf]

/-- The class length does not decrease as the value grows (R34). -/
theorem classOf_mono {W : Width} {v v' : Nat} (h : v ≤ v') : (classOf W v).1 ≤ (classOf W v').1 := by
  rcases class_cases W v with ⟨L, h1, h2, h3, h4, e⟩ | ⟨ho, e⟩ <;>
  rcases class_cases W v' with ⟨L', h1', h2', h3', h4', e'⟩ | ⟨ho', e'⟩ <;> rw [e, e']
  · by_contra hc
    have := base_mono (L := L'+1) (L' := L) (by simp at hc; omega)
    omega
  · have := nmark_lt_maxBytes W; simp; omega
  · have := lt_ovfBase h2' h4'; omega

/-- A successful ENC wrote the canonical form of a value in range (R68). -/
theorem encU_next_ok {W : Width} {s t : State} (ht : exec (.encU W) s = .next t) (hst : t.resp.status = .ok) :
    inRangeU W s.req.valIn.toNat ∧ t.resp = okForm (canonicalForm W s.req.valIn.toNat) := by
  rw [exec_eq_next.1 ht] at hst ⊢
  simp only [responseTo_encU, Request.valUnsigned] at hst ⊢
  obtain ⟨a, e⟩ := exists_ok_of_deliver_ok hst
  rw [e]
  unfold encU at e
  split at e
  · rename_i h; cases e; exact ⟨h, rfl⟩
  · cases e

/-- A successful DEC answered a value in range and a length (R74). -/
theorem decU_next_ok {W : Width} {s t : State} (ht : exec (.decU W) s = .next t) (hst : t.resp.status = .ok) :
    ∃ v L, decU W s.req.winIn s.req.avail = .ok (v, L) ∧ t.resp = okValue (ofUnsigned v) L ∧ L ≤ 18 ∧ inRangeU W v := by
  rw [exec_eq_next.1 ht] at hst ⊢
  simp only [responseTo_decU] at hst ⊢
  obtain ⟨⟨v, L⟩, e⟩ := exists_ok_of_deliver_ok hst
  obtain ⟨f, hl, ha, _, hr⟩ := decU_eq_ok e
  have := (lpa_length hl).2.1
  have := maxBytes_le W
  exact ⟨v, L, e, by rw [e]; rfl, by omega, hr⟩

/-- A successful ZZ had an operand in range and answered its image (R84). -/
theorem zz_next_ok {W : Width} {s t : State} (ht : exec (.zz W) s = .next t) (hst : t.resp.status = .ok) :
    inRangeS W s.req.valIn.toInt ∧ t.resp = okValue (ofUnsigned (zigzag W s.req.valIn.toInt)) 0 := by
  rw [exec_eq_next.1 ht] at hst ⊢
  simp only [responseTo_zz, Request.valSigned] at hst ⊢
  by_cases h : inRangeS W s.req.valIn.toInt
  · rw [zz_ok h]; exact ⟨h, rfl⟩
  · rw [zz_error h] at hst; cases hst

/-- A successful UNZZ had an operand in range and answered the integer it is the image of (R88). -/
theorem unzz_next_ok {W : Width} {s t : State} (ht : exec (.unzz W) s = .next t) (hst : t.resp.status = .ok) :
    inRangeU W s.req.valIn.toNat ∧ t.resp = okValue (ofSigned (unzigzag W s.req.valIn.toNat)) 0 := by
  rw [exec_eq_next.1 ht] at hst ⊢
  simp only [responseTo_unzz, Request.valUnsigned] at hst ⊢
  by_cases h : inRangeU W s.req.valIn.toNat
  · rw [unzz_ok h]; exact ⟨h, rfl⟩
  · rw [unzz_error h] at hst; cases hst

/-- A form PACK writes has the class length asked for (R58). -/
theorem packForm_length {W : Width} {L P : Nat} {out : List Byte} (h : packForm W L P = .ok out) : out.length = L ∧ L ≤ 18 ∧ ((1 ≤ L ∧ L ≤ nmark W) ∨ L = maxBytes W) := by
  have hm := maxBytes_le W
  have hn := nmark_lt_maxBytes W
  rcases packForm_cases W L P with ⟨h1, hL, _, e⟩ | ⟨hL, _, e⟩ | ⟨e, _⟩ | ⟨e, _⟩ <;> rw [h] at e <;> cases e
  · exact ⟨length_packMarker _ h1, by omega, .inl ⟨h1, hL⟩⟩
  · exact ⟨by rw [length_packOvf, hL], by omega, .inr hL⟩

/-- A length the analyzer answers exists at the width (R34, R36). -/
theorem isLength_of_lpa {W : Width} {b : Byte} {L : Nat} {f : Form} (h : lpa W b = .ok (L, f)) : IsLength W L := by
  obtain ⟨h1, hM, hm, ho⟩ := lpa_length h
  cases f with
  | marker => exact ⟨h1, hM, .inl (hm rfl).1⟩
  | overflow => exact ⟨h1, hM, .inr (ho rfl).1⟩

/-- One response to two requests. -/
theorem sameResponse_of_eq {i : Instr} {s s' : State} (h : responseTo i s.req = responseTo i s'.req) : SameResponse i s s' :=
  ⟨_, answers_iff.2 rfl, answers_iff.2 h.symm⟩

/-- A `byte0` row answers the same whatever the ports hold (R36). -/
theorem responseTo_row {i : Instr} (h : i.isCommand = false) (q q' : Request) : responseTo i q = responseTo i q' := by
  cases i <;> first | rfl | exact absurd h (by decide)

end Sys2Proof.Machine
end

