-- ==== Sys2Proof/Laws/PerInstr.lean ====
section
/-! SUPPORT. Per instruction: the encoding of a well-formed instruction decodes to it, with every operand at every
value the row admits (R31, R36, R45). -/

namespace Sys2Proof.Laws.Encoding

/-- The decoder of the instruction's format reads its encoding back. -/
def Statement (i : Instr) : Prop :=
  i.wf = true → decodeAs i (encode i) = .ok i

theorem encU32 : Statement .encU32 := fun _ => by decide
theorem encS32 : Statement .encS32 := fun _ => by decide
theorem decU32 : Statement .decU32 := fun _ => by decide
theorem decS32 : Statement .decS32 := fun _ => by decide
theorem peek32 : Statement .peek32 := fun _ => by decide
theorem zz32 : Statement .zz32 := fun _ => by decide
theorem unzz32 : Statement .unzz32 := fun _ => by decide
theorem pack32 : Statement .pack32 := fun _ => by decide
theorem unpack32 : Statement .unpack32 := fun _ => by decide
theorem encU64 : Statement .encU64 := fun _ => by decide
theorem encS64 : Statement .encS64 := fun _ => by decide
theorem decU64 : Statement .decU64 := fun _ => by decide
theorem decS64 : Statement .decS64 := fun _ => by decide
theorem peek64 : Statement .peek64 := fun _ => by decide
theorem zz64 : Statement .zz64 := fun _ => by decide
theorem unzz64 : Statement .unzz64 := fun _ => by decide
theorem pack64 : Statement .pack64 := fun _ => by decide
theorem unpack64 : Statement .unpack64 := fun _ => by decide
theorem encU128 : Statement .encU128 := fun _ => by decide
theorem encS128 : Statement .encS128 := fun _ => by decide
theorem decU128 : Statement .decU128 := fun _ => by decide
theorem decS128 : Statement .decS128 := fun _ => by decide
theorem peek128 : Statement .peek128 := fun _ => by decide
theorem zz128 : Statement .zz128 := fun _ => by decide
theorem unzz128 : Statement .unzz128 := fun _ => by decide
theorem pack128 : Statement .pack128 := fun _ => by decide
theorem unpack128 : Statement .unpack128 := fun _ => by decide
theorem byte0W32Z0 (b0 : Byte) : Statement (.byte0W32Z0 b0) := by unfold Statement; revert b0; decide
theorem byte0W32Z1 (b0 : Byte) : Statement (.byte0W32Z1 b0) := by unfold Statement; revert b0; decide
theorem byte0W32Z2 (b0 : Byte) : Statement (.byte0W32Z2 b0) := by unfold Statement; revert b0; decide
theorem byte0W32Z3 (b0 : Byte) : Statement (.byte0W32Z3 b0) := by unfold Statement; revert b0; decide
theorem byte0W32Z4 (b0 : Byte) : Statement (.byte0W32Z4 b0) := by unfold Statement; revert b0; decide
theorem byte0W32Z5 (b0 : Byte) : Statement (.byte0W32Z5 b0) := by unfold Statement; revert b0; decide
theorem byte0W32Z6 (b0 : Byte) : Statement (.byte0W32Z6 b0) := by unfold Statement; revert b0; decide
theorem byte0W32Z7 (b0 : Byte) : Statement (.byte0W32Z7 b0) := by unfold Statement; revert b0; decide
theorem byte0W32Z8 (b0 : Byte) : Statement (.byte0W32Z8 b0) := by unfold Statement; revert b0; decide
theorem byte0W64Z0 (b0 : Byte) : Statement (.byte0W64Z0 b0) := by unfold Statement; revert b0; decide
theorem byte0W64Z1 (b0 : Byte) : Statement (.byte0W64Z1 b0) := by unfold Statement; revert b0; decide
theorem byte0W64Z2 (b0 : Byte) : Statement (.byte0W64Z2 b0) := by unfold Statement; revert b0; decide
theorem byte0W64Z3 (b0 : Byte) : Statement (.byte0W64Z3 b0) := by unfold Statement; revert b0; decide
theorem byte0W64Z4 (b0 : Byte) : Statement (.byte0W64Z4 b0) := by unfold Statement; revert b0; decide
theorem byte0W64Z5 (b0 : Byte) : Statement (.byte0W64Z5 b0) := by unfold Statement; revert b0; decide
theorem byte0W64Z6 (b0 : Byte) : Statement (.byte0W64Z6 b0) := by unfold Statement; revert b0; decide
theorem byte0W64Z7 (b0 : Byte) : Statement (.byte0W64Z7 b0) := by unfold Statement; revert b0; decide
theorem byte0W64Z8 (b0 : Byte) : Statement (.byte0W64Z8 b0) := by unfold Statement; revert b0; decide
theorem byte0W128Z0 (b0 : Byte) : Statement (.byte0W128Z0 b0) := by unfold Statement; revert b0; decide
theorem byte0W128Z1 (b0 : Byte) : Statement (.byte0W128Z1 b0) := by unfold Statement; revert b0; decide
theorem byte0W128Z2 (b0 : Byte) : Statement (.byte0W128Z2 b0) := by unfold Statement; revert b0; decide
theorem byte0W128Z3 (b0 : Byte) : Statement (.byte0W128Z3 b0) := by unfold Statement; revert b0; decide
theorem byte0W128Z4 (b0 : Byte) : Statement (.byte0W128Z4 b0) := by unfold Statement; revert b0; decide
theorem byte0W128Z5 (b0 : Byte) : Statement (.byte0W128Z5 b0) := by unfold Statement; revert b0; decide
theorem byte0W128Z6 (b0 : Byte) : Statement (.byte0W128Z6 b0) := by unfold Statement; revert b0; decide
theorem byte0W128Z7 (b0 : Byte) : Statement (.byte0W128Z7 b0) := by unfold Statement; revert b0; decide
theorem byte0W128Z8 (b0 : Byte) : Statement (.byte0W128Z8 b0) := by unfold Statement; revert b0; decide

end Sys2Proof.Laws.Encoding
end

