-- ==== Sys2Proof/Tests/Slice0.lean ====
section
/-! SUPPORT. Tests of single steps against the spec's own encodings (30_encoding.md) and vectors (95_test_vectors.md),
the smoke test of the well-formedness checks, and for every statement with hypotheses a theorem that meets them, at the
boundary values of each clause. -/

open Sys2Proof Sys2Proof.Machine Sys2Proof.Safety

namespace Sys2Proof.Tests

/-- A state with the operand ports given; the command port is zero, since `exec` does not read it. -/
def port (v : Int) (len : Count) (win : List Byte) (avail : Count) : State :=
  ⟨⟨0, BitVec.ofInt 128 v, len, Window.memWrite win, avail⟩, Response.atReset⟩

/-- One operation answers a status, a value, a byte count, and the bytes of a form with zeros after them. -/
def gives (i : Instr) (s : State) (st : Status) (v : Int) (len : Count) (out : List Byte) : Bool :=
  match exec i s with
  | .next t => t.req == s.req && t.resp.status == st && t.resp.valOut == BitVec.ofInt 128 v && t.resp.lenOut == len &&
      t.resp.winOut.toList == out ++ List.replicate (18 - out.length) 0
  | .fault _ => false
  | .refused _ => false

/-- The state after one operation. -/
def after (i : Instr) (s : State) : State :=
  match exec i s with
  | .next t => t
  | .fault _ => s
  | .refused _ => s

/-- A state with a command word on its port and nothing else. -/
def command (cmd : Byte) : State :=
  ⟨{ Request.zero with cmd := cmd }, Response.atReset⟩

/-! ## The checks of well-formedness (R30, R32, R45), each with a term it refuses -/

theorem test_wf_zero_field : CommandFields.wf ⟨1, 0, 0, 0⟩ = false := by decide
theorem test_wf_width_select : CommandFields.wf ⟨0, 3, 0, 0⟩ = false := by decide
theorem test_wf_operation : CommandFields.wf ⟨0, 0, 0, 7⟩ = false := by decide
theorem test_wf_signed_operation : (CommandFields.wf ⟨0, 1, 1, 2⟩ || CommandFields.wf ⟨0, 1, 1, 6⟩) = false := by decide
theorem test_wf_defined_fields : (CommandFields.wf ⟨0, 2, 1, 1⟩ && CommandFields.wf ⟨0, 2, 0, 6⟩) = true := by decide

/-- A row's check refuses the neighbouring first bytes, at each width. -/
theorem test_wf_rows :
    (Instr.byte0W32Z0 0x7F).wf = false ∧ (Instr.byte0W32Z4 0x10).wf = false ∧ (Instr.byte0W32Z8 0x01).wf = false ∧
    (Instr.byte0W64Z1 0x80).wf = false ∧ (Instr.byte0W64Z5 0x03).wf = false ∧ (Instr.byte0W64Z7 0x02).wf = false ∧
    (Instr.byte0W128Z2 0x40).wf = false ∧ (Instr.byte0W128Z6 0x04).wf = false ∧ (Instr.byte0W128Z8 0x80).wf = false := by
  decide

/-- The decoder accepts exactly the words whose fields are well formed (R32). -/
theorem test_decode_iff_wf : ∀ cmd : Byte, (decode cmd).toOption.isSome = (commandFields cmd).wf := by decide

/-! ## Decoding: every row's word, written out from R30's fields (two zero bits, `wsel`, `sgn`, `op`) -/


theorem test_decode_encU :
    decode 0b00_00_0_000#8 = .ok .encU32 ∧ decode 0b00_01_0_000#8 = .ok .encU64 ∧ decode 0b00_10_0_000#8 = .ok .encU128 := by decide

theorem test_decode_encS :
    decode 0b00_00_1_000#8 = .ok .encS32 ∧ decode 0b00_01_1_000#8 = .ok .encS64 ∧ decode 0b00_10_1_000#8 = .ok .encS128 := by decide

theorem test_decode_decU :
    decode 0b00_00_0_001#8 = .ok .decU32 ∧ decode 0b00_01_0_001#8 = .ok .decU64 ∧ decode 0b00_10_0_001#8 = .ok .decU128 := by decide

theorem test_decode_decS :
    decode 0b00_00_1_001#8 = .ok .decS32 ∧ decode 0b00_01_1_001#8 = .ok .decS64 ∧ decode 0b00_10_1_001#8 = .ok .decS128 := by decide

theorem test_decode_peek :
    decode 0b00_00_0_010#8 = .ok .peek32 ∧ decode 0b00_01_0_010#8 = .ok .peek64 ∧ decode 0b00_10_0_010#8 = .ok .peek128 := by decide

theorem test_decode_zz :
    decode 0b00_00_0_011#8 = .ok .zz32 ∧ decode 0b00_01_0_011#8 = .ok .zz64 ∧ decode 0b00_10_0_011#8 = .ok .zz128 := by decide

theorem test_decode_unzz :
    decode 0b00_00_0_100#8 = .ok .unzz32 ∧ decode 0b00_01_0_100#8 = .ok .unzz64 ∧ decode 0b00_10_0_100#8 = .ok .unzz128 := by decide

theorem test_decode_pack :
    decode 0b00_00_0_101#8 = .ok .pack32 ∧ decode 0b00_01_0_101#8 = .ok .pack64 ∧ decode 0b00_10_0_101#8 = .ok .pack128 := by decide

theorem test_decode_unpack :
    decode 0b00_00_0_110#8 = .ok .unpack32 ∧ decode 0b00_01_0_110#8 = .ok .unpack64 ∧ decode 0b00_10_0_110#8 = .ok .unpack128 := by decide

/-- The reserved words the spec lists (95_test_vectors.md X17). -/
theorem test_decode_reserved :
    (decode 0x07).toOption = none ∧ (decode 0x0A).toOption = none ∧ (decode 0x30).toOption = none ∧
    (decode 0x40).toOption = none ∧ (decode 0xFF).toOption = none := by decide

theorem test_step_reserved : step (command 0x07) = .refused (.reservedCommand .operation) := rfl

/-- The `byte0` rows, a first byte of each written out from its pattern (R36): the zeros, the marker, payload bits. -/
theorem test_decode_byte0_32 :
    decodeByte0 .w32 0b1_0101101#8 = .byte0W32Z0 0xAD ∧
    decodeByte0 .w32 0b01_101101#8 = .byte0W32Z1 0x6D ∧
    decodeByte0 .w32 0b001_01101#8 = .byte0W32Z2 0x2D ∧
    decodeByte0 .w32 0b0001_1101#8 = .byte0W32Z3 0x1D ∧
    decodeByte0 .w32 0b00001_101#8 = .byte0W32Z4 0x0D ∧
    decodeByte0 .w32 0b000001_01#8 = .byte0W32Z5 0x05 ∧
    decodeByte0 .w32 0b0000001_1#8 = .byte0W32Z6 0x03 ∧
    decodeByte0 .w32 0b00000001#8 = .byte0W32Z7 0x01 ∧
    decodeByte0 .w32 0b00000000#8 = .byte0W32Z8 0x00 := by decide

theorem test_decode_byte0_64 :
    decodeByte0 .w64 0b1_0101101#8 = .byte0W64Z0 0xAD ∧
    decodeByte0 .w64 0b01_101101#8 = .byte0W64Z1 0x6D ∧
    decodeByte0 .w64 0b001_01101#8 = .byte0W64Z2 0x2D ∧
    decodeByte0 .w64 0b0001_1101#8 = .byte0W64Z3 0x1D ∧
    decodeByte0 .w64 0b00001_101#8 = .byte0W64Z4 0x0D ∧
    decodeByte0 .w64 0b000001_01#8 = .byte0W64Z5 0x05 ∧
    decodeByte0 .w64 0b0000001_1#8 = .byte0W64Z6 0x03 ∧
    decodeByte0 .w64 0b00000001#8 = .byte0W64Z7 0x01 ∧
    decodeByte0 .w64 0b00000000#8 = .byte0W64Z8 0x00 := by decide

theorem test_decode_byte0_128 :
    decodeByte0 .w128 0b1_0101101#8 = .byte0W128Z0 0xAD ∧
    decodeByte0 .w128 0b01_101101#8 = .byte0W128Z1 0x6D ∧
    decodeByte0 .w128 0b001_01101#8 = .byte0W128Z2 0x2D ∧
    decodeByte0 .w128 0b0001_1101#8 = .byte0W128Z3 0x1D ∧
    decodeByte0 .w128 0b00001_101#8 = .byte0W128Z4 0x0D ∧
    decodeByte0 .w128 0b000001_01#8 = .byte0W128Z5 0x05 ∧
    decodeByte0 .w128 0b0000001_1#8 = .byte0W128Z6 0x03 ∧
    decodeByte0 .w128 0b00000001#8 = .byte0W128Z7 0x01 ∧
    decodeByte0 .w128 0b00000000#8 = .byte0W128Z8 0x00 := by decide

/-- The host's two questions on a word: the decoder reads it, and the next step from reset runs it. -/
theorem test_decodeTableWord : decodeTableWord 8 0x16 = some .unpack64 ∧ decodeTableWord 8 0x0F = none := by decide

theorem test_withFetchWord :
    step (State.reset.withFetchWord 8 0x16) = exec .unpack64 (State.reset.withFetchWord 8 0x16) := rfl

/-- The outputs follow a presented request at once (R18): UNPACK.64 of an empty window. -/
theorem test_present_outputs : (State.reset.withFetchWord 8 0x16).resp.status = .error .truncatedInput := by decide

/-! ## One step of each operation, against the spec's vectors (each `-> ` line of 95_test_vectors.md or of the rule) -/


/-! ### ENC (95_test_vectors.md sections 4 and 7) -/

theorem test_encU32_300 :
    gives .encU32 (port (300) 0 [] 0) .ok (0) 2 [0x6C, 0x02] = true := by decide

theorem test_encU32_above_range :
    gives .encU32 (port (4294967296) 0 [] 0) (.error .outOfRange) (0) 0 [] = true := by decide

theorem test_encU64_overflow :
    gives .encU64 (port (72624976668147841) 0 [] 0) .ok (0) 9 [0x00, 0x01, 0x00, 0x00, 0x00, 0x00, 0x00, 0x00, 0x00] = true := by decide

theorem test_encU64_class6 :
    gives .encU64 (port (34630287488) 0 [] 0) .ok (0) 6 [0x04, 0x00, 0x00, 0x00, 0x00, 0x00] = true := by decide

theorem test_encU128_overflow :
    gives .encU128 (port (2 ^ 127) 0 [] 0) .ok (0) 18 [0x00, 0x80, 0xBF, 0xDF, 0xEF, 0xF7, 0xFB, 0xFD, 0xFE, 0xFF, 0xFF, 0xFF, 0xFF, 0xFF, 0xFF, 0xFF, 0x7F, 0x00] = true := by decide

theorem test_encU128_class8 :
    gives .encU128 (port (72624976668147839) 0 [] 0) .ok (0) 8 [0x01, 0xFF, 0xFF, 0xFF, 0xFF, 0xFF, 0xFF, 0xFF] = true := by decide

theorem test_encS32_neg65 :
    gives .encS32 (port (-65) 0 [] 0) .ok (0) 2 [0x41, 0x00] = true := by decide

theorem test_encS32_above_range :
    gives .encS32 (port (2147483648) 0 [] 0) (.error .outOfRange) (0) 0 [] = true := by decide

theorem test_encS64_min :
    gives .encS64 (port (-9223372036854775808) 0 [] 0) .ok (0) 9 [0x00, 0x7F, 0xBF, 0xDF, 0xEF, 0xF7, 0xFB, 0xFD, 0xFE] = true := by decide

theorem test_encS64_above_range :
    gives .encS64 (port (9223372036854775808) 0 [] 0) (.error .outOfRange) (0) 0 [] = true := by decide

theorem test_encS128_max :
    gives .encS128 (port (2 ^ 127 - 1) 0 [] 0) .ok (0) 18 [0x00, 0x7E, 0xBF, 0xDF, 0xEF, 0xF7, 0xFB, 0xFD, 0xFE, 0xFF, 0xFF, 0xFF, 0xFF, 0xFF, 0xFF, 0xFF, 0xFF, 0x00] = true := by decide

theorem test_encS128_min :
    gives .encS128 (port (-(2 ^ 127)) 0 [] 0) .ok (0) 18 [0x00, 0x7F, 0xBF, 0xDF, 0xEF, 0xF7, 0xFB, 0xFD, 0xFE, 0xFF, 0xFF, 0xFF, 0xFF, 0xFF, 0xFF, 0xFF, 0xFF, 0x00] = true := by decide

/-! ### DEC (sections 5 and 7) and UNPACK (R63 to R65, section 8) -/

theorem test_decU32_marker5 :
    gives .decU32 (port 0 0 [0x0F, 0xEF, 0xF7, 0xFB, 0x1D] 5) .ok (4294967295) 5 [] = true := by decide

theorem test_decU32_invalid :
    gives .decU32 (port 0 0 [0x04, 0x00] 2) (.error .invalidPrefix) (0) 0 [] = true := by decide

theorem test_decU64_rest_ignored :
    gives .decU64 (port 0 0 [0x6C, 0x02, 0xAA, 0xBB, 0xCC] 5) .ok (300) 2 [] = true := by decide

theorem test_decU64_above_range :
    gives .decU64 (port 0 0 [0x00, 0x80, 0xBF, 0xDF, 0xEF, 0xF7, 0xFB, 0xFD, 0xFE] 9) (.error .outOfRange) (0) 0 [] = true := by decide

theorem test_decU128_max :
    gives .decU128 (port 0 0 [0x00, 0x7F, 0xBF, 0xDF, 0xEF, 0xF7, 0xFB, 0xFD, 0xFE, 0xFF, 0xFF, 0xFF, 0xFF, 0xFF, 0xFF, 0xFF, 0xFF, 0x00] 18) .ok (2 ^ 128 - 1) 18 [] = true := by decide

theorem test_decU128_truncated :
    gives .decU128 (port 0 0 [0x00, 0x7F, 0xBF, 0xDF, 0xEF, 0xF7, 0xFB, 0xFD, 0xFE] 9) (.error .truncatedInput) (0) 0 [] = true := by decide

theorem test_decS32_neg8256 :
    gives .decS32 (port 0 0 [0x7F, 0xFF] 2) .ok (-8256) 2 [] = true := by decide

theorem test_decS32_above_range :
    gives .decS32 (port 0 0 [0x00, 0x80, 0xBF, 0xDF, 0xEF] 5) (.error .outOfRange) (0) 0 [] = true := by decide

theorem test_decS64_max :
    gives .decS64 (port 0 0 [0x00, 0x7E, 0xBF, 0xDF, 0xEF, 0xF7, 0xFB, 0xFD, 0xFE] 9) .ok (9223372036854775807) 9 [] = true := by decide

theorem test_decS64_truncated :
    gives .decS64 (port 0 0 [0x00, 0x7F, 0xBF, 0xDF, 0xEF] 5) (.error .truncatedInput) (0) 0 [] = true := by decide

theorem test_decS128_neg2 :
    gives .decS128 (port 0 0 [0x83] 1) .ok (-2) 1 [] = true := by decide

theorem test_decS128_min :
    gives .decS128 (port 0 0 [0x00, 0x7F, 0xBF, 0xDF, 0xEF, 0xF7, 0xFB, 0xFD, 0xFE, 0xFF, 0xFF, 0xFF, 0xFF, 0xFF, 0xFF, 0xFF, 0xFF, 0x00] 18) .ok (-(2 ^ 127)) 18 [] = true := by decide

theorem test_unpack32_marker5 :
    gives .unpack32 (port 0 0 [0x0F, 0xFF, 0xFF, 0xFF, 0xFF] 5) .ok (0x7FFFFFFFF) 5 [] = true := by decide

theorem test_unpack32_overflow :
    gives .unpack32 (port 0 0 [0x00, 0x7F, 0xBF, 0xDF, 0xEF] 5) .ok (0xEFDFBF7F) 5 [] = true := by decide

theorem test_unpack64_marker3 :
    gives .unpack64 (port 0 0 [0x20, 0x00, 0x00, 0xAA] 4) .ok (0) 3 [] = true := by decide

theorem test_unpack64_overflow :
    gives .unpack64 (port 0 0 [0x00, 0xFF, 0xFF, 0xFF, 0xFF, 0xFF, 0xFF, 0xFF, 0xFF] 9) .ok (2 ^ 64 - 1) 9 [] = true := by decide

theorem test_unpack128_truncated :
    gives .unpack128 (port 0 0 [0x00, 0x01] 2) (.error .truncatedInput) (0) 0 [] = true := by decide

theorem test_unpack128_too_wide :
    gives .unpack128 (port 0 0 [0x00, 0xFF, 0xFF, 0xFF, 0xFF, 0xFF, 0xFF, 0xFF, 0xFF, 0xFF, 0xFF, 0xFF, 0xFF, 0xFF, 0xFF, 0xFF, 0xFF, 0x01] 18) (.error .outOfRange) (0) 0 [] = true := by decide

/-! ### PACK (R59 to R61, section 8) -/

theorem test_pack32_overflow :
    gives .pack32 (port (0xEFDFBF7F) 5 [] 0) .ok (0) 5 [0x00, 0x7F, 0xBF, 0xDF, 0xEF] = true := by decide

theorem test_pack32_no_class :
    gives .pack32 (port (0) 6 [] 0) (.error .invalidPrefix) (0) 0 [] = true := by decide

theorem test_pack64_class8 :
    gives .pack64 (port (0x00FFFFFFFFFFFFFF) 8 [] 0) .ok (0) 8 [0x01, 0xFF, 0xFF, 0xFF, 0xFF, 0xFF, 0xFF, 0xFF] = true := by decide

theorem test_pack64_too_wide :
    gives .pack64 (port (128) 1 [] 0) (.error .outOfRange) (0) 0 [] = true := by decide

theorem test_pack128_overflow :
    gives .pack128 (port (1) 18 [] 0) .ok (0) 18 [0x00, 0x01, 0x00, 0x00, 0x00, 0x00, 0x00, 0x00, 0x00, 0x00, 0x00, 0x00, 0x00, 0x00, 0x00, 0x00, 0x00, 0x00] = true := by decide

theorem test_pack128_no_class :
    gives .pack128 (port (0) 9 [] 0) (.error .invalidPrefix) (0) 0 [] = true := by decide

/-! ### ZZ and UNZZ (section 6) -/

theorem test_zz32_neg1 :
    gives .zz32 (port (-1) 0 [] 0) .ok (1) 0 [] = true := by decide

theorem test_zz32_pattern_of_neg1 :
    gives .zz32 (port (4294967295) 0 [] 0) (.error .outOfRange) (0) 0 [] = true := by decide

theorem test_zz64_min :
    gives .zz64 (port (-9223372036854775808) 0 [] 0) .ok (18446744073709551615) 0 [] = true := by decide

theorem test_zz64_above_range :
    gives .zz64 (port (2 ^ 63) 0 [] 0) (.error .outOfRange) (0) 0 [] = true := by decide

theorem test_zz128_max :
    gives .zz128 (port (2 ^ 127 - 1) 0 [] 0) .ok (2 ^ 128 - 2) 0 [] = true := by decide

theorem test_zz128_min :
    gives .zz128 (port (-(2 ^ 127)) 0 [] 0) .ok (2 ^ 128 - 1) 0 [] = true := by decide

theorem test_unzz32_odd :
    gives .unzz32 (port (4294967295) 0 [] 0) .ok (-2147483648) 0 [] = true := by decide

theorem test_unzz32_above_range :
    gives .unzz32 (port (4294967296) 0 [] 0) (.error .outOfRange) (0) 0 [] = true := by decide

theorem test_unzz64_even :
    gives .unzz64 (port (18446744073709551614) 0 [] 0) .ok (9223372036854775807) 0 [] = true := by decide

theorem test_unzz64_above_range :
    gives .unzz64 (port (2 ^ 64) 0 [] 0) (.error .outOfRange) (0) 0 [] = true := by decide

theorem test_unzz128_even :
    gives .unzz128 (port (2 ^ 128 - 2) 0 [] 0) .ok (2 ^ 127 - 1) 0 [] = true := by decide

theorem test_unzz128_odd :
    gives .unzz128 (port (2 ^ 128 - 1) 0 [] 0) .ok (-(2 ^ 127)) 0 [] = true := by decide

/-! ### PEEK (R52 to R54) -/

theorem test_peek32_invalid :
    gives .peek32 (port 0 0 [0x05] 0) (.error .invalidPrefix) (0) 0 [] = true := by decide

theorem test_peek32_len3 :
    gives .peek32 (port 0 0 [0x3A] 0) .ok (0) 3 [] = true := by decide

theorem test_peek64_zero :
    gives .peek64 (port 0 0 [0x00] 0) .ok (0) 9 [] = true := by decide

theorem test_peek64_ff :
    gives .peek64 (port 0 0 [0xFF] 0) .ok (0) 1 [] = true := by decide

theorem test_peek128_zero :
    gives .peek128 (port 0 0 [0x00] 0) .ok (0) 18 [] = true := by decide

theorem test_peek128_len8 :
    gives .peek128 (port 0 0 [0x01] 0) .ok (0) 8 [] = true := by decide


/-! ### The `byte0` rows (R36's table): marker lengths, the overflow row, and width 32's three error rows -/

theorem test_byte0_32 :
    (gives (.byte0W32Z0 0xAD) State.reset .ok 0 1 [] &&
    gives (.byte0W32Z1 0x6D) State.reset .ok 0 2 [] &&
    gives (.byte0W32Z2 0x2D) State.reset .ok 0 3 [] &&
    gives (.byte0W32Z3 0x1D) State.reset .ok 0 4 [] &&
    gives (.byte0W32Z4 0x0D) State.reset .ok 0 5 [] &&
    gives (.byte0W32Z5 0x05) State.reset (.error .invalidPrefix) 0 0 [] &&
    gives (.byte0W32Z6 0x03) State.reset (.error .invalidPrefix) 0 0 [] &&
    gives (.byte0W32Z7 0x01) State.reset (.error .invalidPrefix) 0 0 [] &&
    gives (.byte0W32Z8 0x00) State.reset .ok 0 5 []) = true := by decide

theorem test_byte0_64 :
    (gives (.byte0W64Z0 0xAD) State.reset .ok 0 1 [] &&
    gives (.byte0W64Z1 0x6D) State.reset .ok 0 2 [] &&
    gives (.byte0W64Z2 0x2D) State.reset .ok 0 3 [] &&
    gives (.byte0W64Z3 0x1D) State.reset .ok 0 4 [] &&
    gives (.byte0W64Z4 0x0D) State.reset .ok 0 5 [] &&
    gives (.byte0W64Z5 0x05) State.reset .ok 0 6 [] &&
    gives (.byte0W64Z6 0x03) State.reset .ok 0 7 [] &&
    gives (.byte0W64Z7 0x01) State.reset .ok 0 8 [] &&
    gives (.byte0W64Z8 0x00) State.reset .ok 0 9 []) = true := by decide

theorem test_byte0_128 :
    (gives (.byte0W128Z0 0xAD) State.reset .ok 0 1 [] &&
    gives (.byte0W128Z1 0x6D) State.reset .ok 0 2 [] &&
    gives (.byte0W128Z2 0x2D) State.reset .ok 0 3 [] &&
    gives (.byte0W128Z3 0x1D) State.reset .ok 0 4 [] &&
    gives (.byte0W128Z4 0x0D) State.reset .ok 0 5 [] &&
    gives (.byte0W128Z5 0x05) State.reset .ok 0 6 [] &&
    gives (.byte0W128Z6 0x03) State.reset .ok 0 7 [] &&
    gives (.byte0W128Z7 0x01) State.reset .ok 0 8 [] &&
    gives (.byte0W128Z8 0x00) State.reset .ok 0 18 []) = true := by decide

/-! ## Every statement with hypotheses: states and operands that meet all of them, clause by clause -/

/-- A range of first bytes, checked by its bounds. -/
theorem markerPrefix_of {L : Nat} {b : Byte} (h : 1 ≤ L ∧ L ≤ 8 ∧ 2 ^ (8 - L) ≤ b.toNat ∧ b.toNat < 2 ^ (9 - L)) :
    MarkerPrefix L b := h

/-- Agreement of two windows on a few bytes, checked byte by byte. -/
theorem samePrefix_of {n : Nat} {w w' : Window} (h : ((List.range n).all fun k => w.byte k == w'.byte k) = true) :
    SamePrefix n w w' := fun k hk => by
  simpa using List.all_eq_true.1 h k (List.mem_range.2 hk)

/-- `after` is the next state, for every instruction. -/
theorem exec_after (i : Instr) (s : State) : exec i s = .next (after i s) := by
  cases i <;> rfl

theorem witness_CommandWordsSelectOperations :
    2 ≤ 2 ∧ 2 ≤ 6 ∧ 6 ≤ 6 ∧ 0 ≤ 1 ∧ 1 ≤ 1 ∧ commandWord .w128 1 6 = 0x2E ∧ commandWord .w64 0 7 = 0x17 := by decide

/-- One word for each of R32's four conditions (the fourth at both ends of `op`), and a command's own word. -/
theorem witness_ReservedCommandWordsRefused :
    (command 0x40).req.cmd.toNat / 64 ≠ 0 ∧ (command 0x30).req.cmd.toNat / 16 % 4 = 3 ∧
    (command 0x07).req.cmd.toNat % 8 = 7 ∧ (command 0x0A).req.cmd.toNat % 8 = 2 ∧ (command 0x2E).req.cmd.toNat % 8 = 6 ∧
    Instr.unpack128.isCommand = true ∧ encode .unpack128 = 0x26 := by decide

theorem witness_EncodingsRoundTrip :
    Instr.encS64.wf = true ∧ (Instr.byte0W128Z8 0).wf = true ∧ (Instr.byte0W32Z0 0xFF).wf = true ∧
    decode 0x26 = .ok .unpack128 ∧ (Instr.byte0W64Z4 0x0F).wf = true ∧ (Instr.byte0W64Z4 0x0F).isCommand = false ∧
    (Instr.byte0W64Z4 0x0F).width = .w64 ∧ encode (.byte0W64Z4 0x0F) = 0x0F := by decide

theorem witness_StepRunsDecodedInstruction :
    decode (command 0x29).req.cmd = .ok .decS128 ∧ decodeTableWord 8 0x29 = some .decS128 := by decide

theorem witness_FirstByteRowsAgreeWithPeek :
    (Instr.byte0W32Z5 0x05).wf = true ∧ (Instr.byte0W32Z5 0x05).isCommand = false ∧ (Instr.byte0W32Z5 0x05).width = .w32 ∧
    encode (.byte0W32Z5 0x05) = (port 0 0 [0x05] 1).req.winIn.byte 0 := by decide

/-- Lengths 1 and 5 at the edges of their ranges, length 6 beyond width 32, and the zero byte. -/
theorem witness_AnalyzerReadsLengthFromFirstByte :
    MarkerPrefix 1 0xFF ∧ MarkerPrefix 1 0x80 ∧ MarkerPrefix 5 0x08 ∧ 5 ≤ maxBytes .w32 ∧ MarkerPrefix 6 0x07 ∧
    maxBytes .w32 < 6 ∧ MarkerPrefix 8 0x01 ∧ 8 ≤ maxBytes .w64 ∧ lpa .w128 0 = .ok (18, .overflow) :=
  ⟨markerPrefix_of (by decide), markerPrefix_of (by decide), markerPrefix_of (by decide), by decide,
    markerPrefix_of (by decide), by decide, markerPrefix_of (by decide), by decide, rfl⟩

/-- Every first byte is one some state presents, those at the edges of the ranges among them. -/
theorem witness_PeekReportsLength : ∀ b : Byte, ((port 0 0 [b] 0).req.winIn.byte 0).toNat = b.toNat := by decide

/-- The lowest and the highest class and payload at each width. -/
theorem witness_PackWritesMarkerForm :
    (port 0 1 [] 0).req.lenIn.toNat = 1 ∧ (port 0 1 [] 0).req.valIn.toNat = 0 ∧ 1 ≤ nmark .w32 ∧ 0 < 2 ^ (7 * 1) ∧
    (port (2 ^ 28 - 1) 4 [] 0).req.lenIn.toNat = 4 ∧ (port (2 ^ 28 - 1) 4 [] 0).req.valIn.toNat = 2 ^ 28 - 1 ∧
    4 ≤ nmark .w32 ∧ 2 ^ 28 - 1 < 2 ^ (7 * 4) ∧
    (port (2 ^ 56 - 1) 8 [] 0).req.valIn.toNat = 2 ^ 56 - 1 ∧ 8 ≤ nmark .w64 ∧ 8 ≤ nmark .w128 ∧
    2 ^ 56 - 1 < 2 ^ (7 * 8) := by decide

theorem witness_PackWritesOverflowForm :
    (port (2 ^ 32 - 1) 5 [] 0).req.lenIn.toNat = maxBytes .w32 ∧
    (port (2 ^ 32 - 1) 5 [] 0).req.valIn.toNat < 2 ^ (8 * (maxBytes .w32 - 1)) ∧
    (port (2 ^ 64 - 1) 9 [] 0).req.lenIn.toNat = maxBytes .w64 ∧
    (port (2 ^ 64 - 1) 9 [] 0).req.valIn.toNat < 2 ^ (8 * (maxBytes .w64 - 1)) ∧
    (port (-1) 18 [] 0).req.lenIn.toNat = maxBytes .w128 ∧
    (port (-1) 18 [] 0).req.valIn.toNat < 2 ^ (8 * (maxBytes .w128 - 1)) := by decide

/-- Lengths 0, 6 and 9 .. 17 without a class; a payload one too wide for a marker and for an overflow form. -/
theorem witness_PackRejects :
    (port 0 0 [] 0).req.lenIn.toNat = 0 ∧ 0 ≠ maxBytes .w32 ∧ (port 0 6 [] 0).req.lenIn.toNat = 6 ∧ ¬ 6 ≤ nmark .w32 ∧
    6 ≠ maxBytes .w32 ∧ ¬ 17 ≤ nmark .w128 ∧ 17 ≠ maxBytes .w128 ∧
    (port 128 1 [] 0).req.lenIn.toNat = 1 ∧ 2 ^ (7 * 1) ≤ (port 128 1 [] 0).req.valIn.toNat ∧
    (port (2 ^ 32) 5 [] 0).req.lenIn.toNat = maxBytes .w32 ∧
    2 ^ (8 * (maxBytes .w32 - 1)) ≤ (port (2 ^ 32) 5 [] 0).req.valIn.toNat := by decide

theorem witness_PackAcceptsClassLengths :
    exec .pack32 (port 0 5 [] 0) = .next (after .pack32 (port 0 5 [] 0)) ∧
    exec .pack64 (port 0 5 [] 0) = .next (after .pack64 (port 0 5 [] 0)) ∧
    exec .pack128 (port 0 18 [] 0) = .next (after .pack128 (port 0 18 [] 0)) ∧
    (after .pack32 (port 0 5 [] 0)).resp.status = .ok ∧
    (after .pack32 (port 0 6 [] 0)).resp.status = .error .invalidPrefix ∧
    (after .pack128 (port (-1) 18 [] 0)).resp.status = .ok ∧
    (after .pack128 (port 0 17 [] 0)).resp.status = .error .invalidPrefix :=
  ⟨rfl, rfl, rfl, rfl, rfl, rfl, rfl⟩

/-- A marker form of length 5 at width 32 and of length 8 at width 128 with just enough bytes; the overflow forms of
width 32 and, with a count above 18, of width 128, below and above `2^128`. -/
theorem witness_UnpackReadsForm :
    (MarkerPrefix 5 ((port 0 0 [0x0F, 0xFF, 0xFF, 0xFF, 0xFF] 5).req.winIn.byte 0) ∧ 5 ≤ maxBytes .w32 ∧
      5 ≤ min (port 0 0 [0x0F] 5).req.availIn.toNat 18) ∧
    (MarkerPrefix 8 ((port 0 0 [0x01] 8).req.winIn.byte 0) ∧ 8 ≤ maxBytes .w128 ∧
      8 ≤ min (port 0 0 [0x01] 8).req.availIn.toNat 18) ∧
    ((port 0 0 [] 5).req.winIn.byte 0 = 0 ∧ maxBytes .w32 ≤ min (port 0 0 [] 5).req.availIn.toNat 18) ∧
    ((port 0 0 (List.replicate 17 0 ++ [0]) 31).req.winIn.byte 0 = 0 ∧
      maxBytes .w128 ≤ min (port 0 0 [] 31).req.availIn.toNat 18 ∧
      overflowPayload (maxBytes .w128) (port 0 0 (List.replicate 17 0 ++ [0]) 31).req.winIn < 2 ^ 128 ∧
      2 ^ 128 ≤ overflowPayload (maxBytes .w128) (port 0 0 (List.replicate 17 0 ++ [1]) 31).req.winIn) :=
  ⟨⟨markerPrefix_of (by decide), by decide⟩, ⟨markerPrefix_of (by decide), by decide⟩, by decide, by decide, by decide,
    by decide, by decide⟩

/-- No byte; a length width 32 lacks; one byte short of a marker and of an overflow form. -/
theorem witness_WindowTestsInOrder :
    (port 0 0 [0x80] 0).req.availIn = 0 ∧
    ((port 0 0 [0x04] 2).req.availIn ≠ 0 ∧ MarkerPrefix 6 ((port 0 0 [0x04] 2).req.winIn.byte 0) ∧ maxBytes .w32 < 6) ∧
    ((port 0 0 [0x40] 1).req.availIn ≠ 0 ∧ MarkerPrefix 2 ((port 0 0 [0x40] 1).req.winIn.byte 0) ∧
      2 ≤ maxBytes .w32 ∧ min (port 0 0 [0x40] 1).req.availIn.toNat 18 < 2) ∧
    ((port 0 0 [0x00] 17).req.availIn ≠ 0 ∧ (port 0 0 [0x00] 17).req.winIn.byte 0 = 0 ∧
      min (port 0 0 [0x00] 17).req.availIn.toNat 18 < maxBytes .w128) :=
  ⟨by decide, ⟨by decide, markerPrefix_of (by decide), by decide⟩, ⟨by decide, markerPrefix_of (by decide), by decide⟩,
    by decide⟩

/-- A form with another byte after it in the window, and as many bytes present as the form has. -/
theorem witness_UnpackInvertsPack :
    exec (.pack .w64) (port 1 2 [] 0) = .next (after (.pack .w64) (port 1 2 [] 0)) ∧
    (after (.pack .w64) (port 1 2 [] 0)).resp.status = .ok ∧
    SamePrefix (after (.pack .w64) (port 1 2 [] 0)).resp.lenOut.toNat (port 0 0 [0x41, 0x00, 0xAA] 2).req.winIn
      (after (.pack .w64) (port 1 2 [] 0)).resp.winOut ∧
    (after (.pack .w64) (port 1 2 [] 0)).resp.lenOut.toNat ≤ min (port 0 0 [0x41, 0x00, 0xAA] 2).req.availIn.toNat 18 :=
  ⟨rfl, rfl, samePrefix_of (by decide), by decide⟩

/-- A form PACK gives back, and width 32's marker form of length 5 with a payload below and at `2^32`. -/
theorem witness_PackInvertsUnpackButForOneForm :
    (exec (.unpack .w64) (port 0 0 [0x20, 0, 0] 3) = .next (after (.unpack .w64) (port 0 0 [0x20, 0, 0] 3)) ∧
      (after (.unpack .w64) (port 0 0 [0x20, 0, 0] 3)).resp.status = .ok ∧
      (port 0 3 [] 0).req.valIn = (after (.unpack .w64) (port 0 0 [0x20, 0, 0] 3)).resp.valOut ∧
      (port 0 3 [] 0).req.lenIn = (after (.unpack .w64) (port 0 0 [0x20, 0, 0] 3)).resp.lenOut ∧ Width.w64 ≠ .w32) ∧
    ((after (.unpack .w32) (port 0 0 [0x08, 0, 0, 0, 0] 5)).resp.status = .ok ∧
      MarkerPrefix 5 ((port 0 0 [0x08, 0, 0, 0, 0] 5).req.winIn.byte 0) ∧
      (after (.unpack .w32) (port 0 0 [0x08, 0, 0, 0, 0] 5)).resp.valOut.toNat < 2 ^ 32) ∧
    ((after (.unpack .w32) (port 0 0 [0x08, 0, 0, 0, 0x20] 5)).resp.status = .ok ∧
      MarkerPrefix 5 ((port 0 0 [0x08, 0, 0, 0, 0x20] 5).req.winIn.byte 0) ∧
      2 ^ 32 ≤ (after (.unpack .w32) (port 0 0 [0x08, 0, 0, 0, 0x20] 5)).resp.valOut.toNat) :=
  ⟨⟨rfl, rfl, rfl, rfl, by decide⟩, ⟨rfl, markerPrefix_of (by decide), by decide⟩,
    ⟨rfl, markerPrefix_of (by decide), by decide⟩⟩

theorem witness_Thresholds : 1 ≤ 1 := by decide

theorem witness_ClassesPartitionTheRange :
    4294967295 ≤ 2 ^ Width.w32.bits - 1 ∧ 2 ^ Width.w32.bits - 1 < 4294967296 := by decide

/-- Both sides of the bound of width 32 and of its overflow class, and the ends of its marker classes. -/
theorem witness_EncodeUnsigned :
    (port (2 ^ 32) 0 [] 0).req.valIn.toNat = 2 ^ 32 ∧ 2 ^ Width.w32.bits - 1 < 2 ^ 32 ∧
    (port 0 0 [] 0).req.valIn.toNat = 0 ∧ base 1 ≤ 0 ∧ 0 < base (1 + 1) ∧ 1 ≤ nmark .w32 ∧
    (port 270549119 0 [] 0).req.valIn.toNat = 270549119 ∧ base 4 ≤ 270549119 ∧ 270549119 < base (4 + 1) ∧ 4 ≤ nmark .w32 ∧
    (port 270549120 0 [] 0).req.valIn.toNat = 270549120 ∧ ovfBase .w32 ≤ 270549120 ∧
    (port 4294967295 0 [] 0).req.valIn.toNat ≤ 2 ^ Width.w32.bits - 1 ∧
    exec (.encU .w32) (port 0 0 [] 0) = .next (after (.encU .w32) (port 0 0 [] 0)) :=
  ⟨by decide, by decide, by decide, by decide, by decide, by decide, by decide, by decide, by decide, by decide,
    by decide, by decide, by decide, rfl⟩

/-- The ends of each range of R69, each on its port. -/
theorem witness_EncodeU32InNumbers :
    (port 127 0 [] 0).req.valIn.toNat = 127 ∧ (port 128 0 [] 0).req.valIn.toNat = 128 ∧
    (port 16511 0 [] 0).req.valIn.toNat = 16511 ∧ (port 16512 0 [] 0).req.valIn.toNat = 16512 ∧
    (port 2113663 0 [] 0).req.valIn.toNat = 2113663 ∧ (port 2113664 0 [] 0).req.valIn.toNat = 2113664 ∧
    (port 270549119 0 [] 0).req.valIn.toNat = 270549119 ∧ (port 270549120 0 [] 0).req.valIn.toNat = 270549120 ∧
    (port 4294967295 0 [] 0).req.valIn.toNat = 4294967295 ∧ (port 4294967296 0 [] 0).req.valIn.toNat = 4294967296 := by
  decide

/-- Two values in order, and one value on each side of the two thresholds where the widths part. -/
theorem witness_EncoderLengthIsMinimalAndMonotone :
    (port 127 0 [] 0).req.valIn.toNat ≤ (port 128 0 [] 0).req.valIn.toNat ∧
    (port 128 0 [] 0).req.valIn.toNat ≤ 2 ^ Width.w32.bits - 1 ∧
    exec (.encU .w32) (port 128 0 [] 0) = .next (after (.encU .w32) (port 128 0 [] 0)) ∧
    InClass .w32 128 2 ∧
    exec .encU32 (port 270549119 0 [] 0) = .next (after .encU32 (port 270549119 0 [] 0)) ∧
    exec .encU64 (port 270549120 0 [] 0) = .next (after .encU64 (port 270549120 0 [] 0)) ∧
    exec .encU128 (port 72624976668147840 0 [] 0) = .next (after .encU128 (port 72624976668147840 0 [] 0)) ∧
    (port 72624976668147840 0 [] 0).req.valIn.toNat ≤ 2 ^ 64 - 1 :=
  ⟨by decide, by decide, rfl, .inl (by decide), rfl, rfl, rfl, by decide⟩

/-- The lowest value of the first class and the highest of the last. -/
theorem witness_EncodeIsPackOfPayload :
    InClass .w32 (port 0 0 [] 0).req.valIn.toNat 1 ∧ InClass .w128 (port (-1) 0 [] 0).req.valIn.toNat 18 :=
  ⟨.inl (by decide), .inr (by decide)⟩

theorem witness_CanonicalFormsArePrefixFree :
    exec (.encU .w64) (port 300 0 [] 0) = .next (after (.encU .w64) (port 300 0 [] 0)) ∧
    (after (.encU .w64) (port 300 0 [] 0)).resp.status = .ok ∧
    exec (.encU .w64) (port 300 7 [0xAA] 3) = .next (after (.encU .w64) (port 300 7 [0xAA] 3)) ∧
    (after (.encU .w64) (port 300 7 [0xAA] 3)).resp.status = .ok ∧
    SamePrefix (after (.encU .w64) (port 300 0 [] 0)).resp.lenOut.toNat (after (.encU .w64) (port 300 0 [] 0)).resp.winOut
      (after (.encU .w64) (port 300 7 [0xAA] 3)).resp.winOut :=
  ⟨rfl, rfl, rfl, rfl, samePrefix_of (by decide)⟩

/-- Width 32's marker form of length 5 and its overflow form, at the greatest value in range and one above it; width
128's overflow form. -/
theorem witness_DecodeUnsigned :
    (MarkerPrefix 5 ((port 0 0 [0x0F, 0xEF, 0xF7, 0xFB, 0x1D] 5).req.winIn.byte 0) ∧ 5 ≤ maxBytes .w32 ∧
      5 ≤ min (port 0 0 [0x0F, 0xEF, 0xF7, 0xFB, 0x1D] 5).req.availIn.toNat 18 ∧
      cbase .w32 5 + markerPayload 5 (port 0 0 [0x0F, 0xEF, 0xF7, 0xFB, 0x1D] 5).req.winIn = 2 ^ Width.w32.bits - 1) ∧
    (MarkerPrefix 5 ((port 0 0 [0x08, 0xF0, 0xF7, 0xFB, 0x1D] 5).req.winIn.byte 0) ∧
      cbase .w32 5 + markerPayload 5 (port 0 0 [0x08, 0xF0, 0xF7, 0xFB, 0x1D] 5).req.winIn = 2 ^ Width.w32.bits) ∧
    ((port 0 0 [0x00, 0x7F, 0xBF, 0xDF, 0xEF] 5).req.winIn.byte 0 = 0 ∧
      maxBytes .w32 ≤ min (port 0 0 [0x00, 0x7F, 0xBF, 0xDF, 0xEF] 5).req.availIn.toNat 18 ∧
      ovfBase .w32 + overflowPayload 5 (port 0 0 [0x00, 0x7F, 0xBF, 0xDF, 0xEF] 5).req.winIn = 2 ^ Width.w32.bits - 1 ∧
      ovfBase .w32 + overflowPayload 5 (port 0 0 [0x00, 0x80, 0xBF, 0xDF, 0xEF] 5).req.winIn = 2 ^ Width.w32.bits) ∧
    ((port 0 0 [] 18).req.winIn.byte 0 = 0 ∧ maxBytes .w128 ≤ min (port 0 0 [] 18).req.availIn.toNat 18 ∧
      ovfBase .w128 + overflowPayload 18 (port 0 0 [] 18).req.winIn ≤ 2 ^ Width.w128.bits - 1) :=
  ⟨⟨markerPrefix_of (by decide), by decide⟩, ⟨markerPrefix_of (by decide), by decide⟩, by decide, by decide⟩

/-- Width 32's marker form of length 5, the greatest value it has in range. -/
theorem witness_DecodedValueLiesInItsClass :
    exec (.decU .w32) (port 0 0 [0x0F, 0xEF, 0xF7, 0xFB, 0x1D] 5) =
      .next (after (.decU .w32) (port 0 0 [0x0F, 0xEF, 0xF7, 0xFB, 0x1D] 5)) ∧
    (after (.decU .w32) (port 0 0 [0x0F, 0xEF, 0xF7, 0xFB, 0x1D] 5)).resp.status = .ok := ⟨rfl, rfl⟩

theorem witness_DecodeInvertsEncodeUnsigned :
    exec (.encU .w64) (port 300 0 [] 0) = .next (after (.encU .w64) (port 300 0 [] 0)) ∧
    (after (.encU .w64) (port 300 0 [] 0)).resp.status = .ok ∧
    SamePrefix (after (.encU .w64) (port 300 0 [] 0)).resp.lenOut.toNat (port 0 0 [0x6C, 0x02, 0xAA] 2).req.winIn
      (after (.encU .w64) (port 300 0 [] 0)).resp.winOut ∧
    (after (.encU .w64) (port 300 0 [] 0)).resp.lenOut.toNat ≤ min (port 0 0 [0x6C, 0x02, 0xAA] 2).req.availIn.toNat 18 :=
  ⟨rfl, rfl, samePrefix_of (by decide), by decide⟩

theorem witness_EncodeInvertsDecodeUnsigned :
    exec (.decU .w32) (port 0 0 [0, 0, 0, 0, 0] 5) = .next (after (.decU .w32) (port 0 0 [0, 0, 0, 0, 0] 5)) ∧
    (after (.decU .w32) (port 0 0 [0, 0, 0, 0, 0] 5)).resp.status = .ok ∧
    ¬ (Width.w32 = .w32 ∧ MarkerPrefix 5 ((port 0 0 [0, 0, 0, 0, 0] 5).req.winIn.byte 0)) ∧
    (port 270549120 0 [] 0).req.valIn = (after (.decU .w32) (port 0 0 [0, 0, 0, 0, 0] 5)).resp.valOut :=
  ⟨rfl, rfl, fun h => absurd h.2.2.2.1 (by decide), rfl⟩

/-- One form with two different windows after it. -/
theorem witness_DecoderIsInjective :
    exec (.decU .w64) (port 0 0 [0x6C, 0x02, 0xAA] 3) = .next (after (.decU .w64) (port 0 0 [0x6C, 0x02, 0xAA] 3)) ∧
    (after (.decU .w64) (port 0 0 [0x6C, 0x02, 0xAA] 3)).resp.status = .ok ∧
    exec (.decU .w64) (port 0 0 [0x6C, 0x02, 0xBB] 2) = .next (after (.decU .w64) (port 0 0 [0x6C, 0x02, 0xBB] 2)) ∧
    (after (.decU .w64) (port 0 0 [0x6C, 0x02, 0xBB] 2)).resp.status = .ok ∧ Width.w64 ≠ .w32 ∧
    (after (.decU .w64) (port 0 0 [0x6C, 0x02, 0xAA] 3)).resp.valOut =
      (after (.decU .w64) (port 0 0 [0x6C, 0x02, 0xBB] 2)).resp.valOut :=
  ⟨rfl, rfl, rfl, rfl, by decide, rfl⟩

theorem witness_PeekAgreesWithDecode :
    exec (.decS .w32) (port 0 0 [0x7F, 0xFF] 2) = .next (after (.decS .w32) (port 0 0 [0x7F, 0xFF] 2)) ∧
    (after (.decS .w32) (port 0 0 [0x7F, 0xFF] 2)).resp.status = .ok ∧
    (port 0 0 [0x7F] 0).req.winIn.byte 0 = (port 0 0 [0x7F, 0xFF] 2).req.winIn.byte 0 := ⟨rfl, rfl, rfl⟩

/-- One byte short; and a width-64 form at both ends of each of the three ranges, the last with an overflow payload
whose low four bytes are in range and out of it. -/
theorem witness_TruncationAndCrossWidthDecoding :
    (lpa .w64 ((port 0 0 [0x6C, 0x02] 1).req.winIn.byte 0) = .ok (2, .marker) ∧
      min (port 0 0 [0x6C, 0x02] 1).req.availIn.toNat 18 < 2) ∧
    ((port 4294967296 0 [] 0).req.valIn.toNat = 2 ^ 32 ∧ (port 34630287487 0 [] 0).req.valIn.toNat = 34630287488 - 1 ∧
      (port 34630287488 0 [] 0).req.valIn.toNat = 34630287488 ∧
      (port 72624976668147839 0 [] 0).req.valIn.toNat = 72624976668147840 - 1 ∧
      (port 72624976668147840 0 [] 0).req.valIn.toNat = 72624976668147840) ∧
    (exec .encU64 (port 18446744073709551615 0 [] 0) = .next (after .encU64 (port 18446744073709551615 0 [] 0)) ∧
      (after .encU64 (port 18446744073709551615 0 [] 0)).resp.status = .ok ∧
      SamePrefix 9 (port 0 0 [0x00, 0x7F, 0xBF, 0xDF, 0xEF, 0xF7, 0xFB, 0xFD, 0xFE] 9).req.winIn
        (after .encU64 (port 18446744073709551615 0 [] 0)).resp.winOut ∧
      (after .encU64 (port 18446744073709551615 0 [] 0)).resp.lenOut.toNat ≤ min 9 18 ∧
      overflowPayload 5 (after .encU64 (port 18446744073709551615 0 [] 0)).resp.winOut = 0xEFDFBF7F) ∧
    (after .encU64 (port 72624980692566016 0 [] 0)).resp.status = .ok ∧
    0xEFDFBF7F < overflowPayload 5 (after .encU64 (port 72624980692566016 0 [] 0)).resp.winOut :=
  ⟨⟨rfl, by decide⟩, by decide, ⟨rfl, rfl, samePrefix_of (by decide), by decide, by decide⟩, rfl, by decide⟩

theorem witness_DecodeIsUnpackPlusBase :
    exec (.decU .w64) (port 0 0 [0x41, 0x00] 2) = .next (after (.decU .w64) (port 0 0 [0x41, 0x00] 2)) ∧
    (after (.decU .w64) (port 0 0 [0x41, 0x00] 2)).resp.status = .ok := ⟨rfl, rfl⟩

/-- Both sides of both bounds of width 32. -/
theorem witness_ZigzagOperation :
    (port (-2147483648) 0 [] 0).req.valIn.toInt = -2 ^ (Width.w32.bits - 1) ∧
    (port 2147483647 0 [] 0).req.valIn.toInt = 2 ^ (Width.w32.bits - 1) - 1 ∧
    (port (-2147483649) 0 [] 0).req.valIn.toInt < -2 ^ (Width.w32.bits - 1) ∧
    2 ^ (Width.w32.bits - 1) - 1 < (port 2147483648 0 [] 0).req.valIn.toInt := by decide

theorem witness_UnzigzagOperation :
    (port 4294967295 0 [] 0).req.valIn.toNat ≤ 2 ^ Width.w32.bits - 1 ∧
    2 ^ Width.w32.bits - 1 < (port 4294967296 0 [] 0).req.valIn.toNat := by decide

theorem witness_ZigzagIsABijection :
    exec (.zz .w32) (port (-65) 0 [] 0) = .next (after (.zz .w32) (port (-65) 0 [] 0)) ∧
    (after (.zz .w32) (port (-65) 0 [] 0)).resp.status = .ok ∧
    exec (.zz .w128) (port (-65) 0 [] 0) = .next (after (.zz .w128) (port (-65) 0 [] 0)) ∧
    (after (.zz .w128) (port (-65) 0 [] 0)).resp.status = .ok ∧
    exec (.unzz .w64) (port 129 0 [] 0) = .next (after (.unzz .w64) (port 129 0 [] 0)) ∧
    (after (.unzz .w64) (port 129 0 [] 0)).resp.status = .ok := ⟨rfl, rfl, rfl, rfl, rfl, rfl⟩

/-- Both sides of both bounds of width 32, and the image of the lowest value, in the overflow class; the image of 0, in
the first class. -/
theorem witness_EncodeSigned :
    (port (-2147483649) 0 [] 0).req.valIn.toInt < -2 ^ (Width.w32.bits - 1) ∧
    2 ^ (Width.w32.bits - 1) - 1 < (port 2147483648 0 [] 0).req.valIn.toInt ∧
    (port (-2147483648) 0 [] 0).req.valIn.toInt = -2 ^ (Width.w32.bits - 1) ∧
    ((4294967295 : Nat) : Int) = zigzagInt (-2147483648) ∧ ovfBase .w32 ≤ 4294967295 ∧
    (port 0 0 [] 0).req.valIn.toInt = 0 ∧ ((0 : Nat) : Int) = zigzagInt 0 ∧ base 1 ≤ 0 ∧ 0 < base (1 + 1) := by decide

theorem witness_EncodeSignedIsZigzagThenEncode :
    exec (.zz .w64) (port (-65) 0 [] 0) = .next (after (.zz .w64) (port (-65) 0 [] 0)) ∧
    (after (.zz .w64) (port (-65) 0 [] 0)).resp.status = .ok ∧
    exec (.zz .w64) (port (2 ^ 63) 0 [] 0) = .next (after (.zz .w64) (port (2 ^ 63) 0 [] 0)) ∧
    (after (.zz .w64) (port (2 ^ 63) 0 [] 0)).resp.status = .error .outOfRange := ⟨rfl, rfl, rfl, rfl⟩

/-- The forms of `witness_DecodeUnsigned` meet these hypotheses too; here a marker form of width 64. -/
theorem witness_DecodeSigned :
    (MarkerPrefix 2 ((port 0 0 [0x41, 0x00] 2).req.winIn.byte 0) ∧ 2 ≤ maxBytes .w64 ∧
      2 ≤ min (port 0 0 [0x41, 0x00] 2).req.availIn.toNat 18 ∧
      cbase .w64 2 + markerPayload 2 (port 0 0 [0x41, 0x00] 2).req.winIn = 129) ∧
    (MarkerPrefix 5 ((port 0 0 [0x08, 0xF0, 0xF7, 0xFB, 0x1D] 5).req.winIn.byte 0) ∧ 5 ≤ maxBytes .w32 ∧
      2 ^ Width.w32.bits - 1 < cbase .w32 5 + markerPayload 5 (port 0 0 [0x08, 0xF0, 0xF7, 0xFB, 0x1D] 5).req.winIn) ∧
    ((port 0 0 [0x00, 0x7F, 0xBF, 0xDF, 0xEF] 5).req.winIn.byte 0 = 0 ∧
      maxBytes .w32 ≤ min (port 0 0 [0x00, 0x7F, 0xBF, 0xDF, 0xEF] 5).req.availIn.toNat 18 ∧
      ovfBase .w32 + overflowPayload 5 (port 0 0 [0x00, 0x7F, 0xBF, 0xDF, 0xEF] 5).req.winIn ≤ 2 ^ Width.w32.bits - 1 ∧
      2 ^ Width.w32.bits - 1 < ovfBase .w32 + overflowPayload 5 (port 0 0 [0x00, 0x80, 0xBF, 0xDF, 0xEF] 5).req.winIn) :=
  ⟨⟨markerPrefix_of (by decide), by decide⟩, ⟨markerPrefix_of (by decide), by decide⟩, by decide⟩

theorem witness_SignedDecodeFollowsUnsigned :
    exec (.decU .w64) (port 0 0 [0x41, 0x00] 2) = .next (after (.decU .w64) (port 0 0 [0x41, 0x00] 2)) ∧
    (after (.decU .w64) (port 0 0 [0x41, 0x00] 2)).resp.status = .ok ∧
    exec (.encS .w64) (port (-65) 0 [] 0) = .next (after (.encS .w64) (port (-65) 0 [] 0)) ∧
    (after (.encS .w64) (port (-65) 0 [] 0)).resp.status = .ok ∧
    SamePrefix (after (.encS .w64) (port (-65) 0 [] 0)).resp.lenOut.toNat (port 0 0 [0x41, 0x00, 0xAA] 3).req.winIn
      (after (.encS .w64) (port (-65) 0 [] 0)).resp.winOut ∧
    (after (.encS .w64) (port (-65) 0 [] 0)).resp.lenOut.toNat ≤ min (port 0 0 [0x41, 0x00, 0xAA] 3).req.availIn.toNat 18 :=
  ⟨rfl, rfl, rfl, rfl, samePrefix_of (by decide), by decide⟩

theorem witness_SignednessIsNotRecorded :
    exec (.encS .w32) (port (-65) 0 [] 0) = .next (after (.encS .w32) (port (-65) 0 [] 0)) ∧
    (after (.encS .w32) (port (-65) 0 [] 0)).resp.status = .ok ∧
    SamePrefix (after (.encS .w32) (port (-65) 0 [] 0)).resp.lenOut.toNat (port 0 0 [0x41, 0x00] 2).req.winIn
      (after (.encS .w32) (port (-65) 0 [] 0)).resp.winOut ∧
    (after (.encS .w32) (port (-65) 0 [] 0)).resp.lenOut.toNat ≤ min (port 0 0 [0x41, 0x00] 2).req.availIn.toNat 18 ∧
    exec (.zz .w32) (port (-65) 0 [] 0) = .next (after (.zz .w32) (port (-65) 0 [] 0)) :=
  ⟨rfl, rfl, samePrefix_of (by decide), by decide, rfl⟩

theorem witness_UnwrittenPortsAreZero : ∀ (i : Instr) (s : State), ∃ t, exec i s = .next t :=
  fun i s => ⟨_, exec_after i s⟩

theorem witness_StatusMatrix :
    Instr.decU32.isCommand = true ∧ (after .decU32 (port 0 0 [0x04] 1)).resp.status = .error .invalidPrefix ∧
    mayReport .decU32 (.error .invalidPrefix) = true ∧ mayReport .encU128 (.error .outOfRange) = false :=
  ⟨rfl, rfl, rfl, rfl⟩

/-- A truncated form and the same form with its last byte; an invalid first byte and an overflow payload out of range,
each with more bytes after. -/
theorem witness_RetryAfterTruncation :
    (Raises (.decU .w64) (port 0 0 [0x6C] 1) .truncatedInput ∧ (port 0 0 [0x6C] 1).req.availIn ≠ 0 ∧
      (port 0 0 [0x6C, 0x02] 2).req.winIn.byte 0 = (port 0 0 [0x6C] 1).req.winIn.byte 0 ∧
      2 ≤ min (port 0 0 [0x6C, 0x02] 2).req.availIn.toNat 18) ∧
    (Raises (.decS .w32) (port 0 0 [0x04] 1) .invalidPrefix ∧
      SamePrefix 1 (port 0 0 [0x04, 0x00] 2).req.winIn (port 0 0 [0x04] 1).req.winIn) ∧
    (Raises (.decU .w32) (port 0 0 [0x00, 0x80, 0xBF, 0xDF, 0xEF] 5) .outOfRange ∧
      SamePrefix 5 (port 0 0 [0x00, 0x80, 0xBF, 0xDF, 0xEF, 0xAA] 6).req.winIn
        (port 0 0 [0x00, 0x80, 0xBF, 0xDF, 0xEF] 5).req.winIn) :=
  ⟨⟨rfl, by decide, rfl, by decide⟩, ⟨rfl, samePrefix_of (by decide)⟩, rfl, samePrefix_of (by decide)⟩

theorem witness_ResponseIsAFunctionOfTheRequest :
    decode (command 0x05).req.cmd = .ok .pack32 ∧ step (command 0x05) = .next (after .pack32 (command 0x05)) ∧
    (State.mk (command 0x05).req (after .encU32 (command 0x05)).resp).req = (command 0x05).req := ⟨rfl, rfl, rfl⟩

/-- Two requests that differ in everything an operation does not read: for DEC with no byte, with one byte too few, and
with a whole form. -/
theorem witness_UnreadInputsHaveNoEffect :
    (port 5 1 [0x11] 2).req.valIn = (port 5 1 [0x22] 3).req.valIn ∧
    (port 5 1 [0x11] 2).req.lenIn = (port 5 1 [0x22] 3).req.lenIn ∧
    (port 5 1 [0x11] 2).req.winIn.byte 0 = (port 6 2 [0x11, 0x33] 4).req.winIn.byte 0 ∧
    ((port 0 0 [0x11] 0).req.availIn = (port 1 1 [0x22] 0).req.availIn ∧ ¬ 1 ≤ (port 0 0 [0x11] 0).req.availIn.toNat) ∧
    ((port 0 0 [0x40, 0x11] 1).req.availIn = (port 1 1 [0x40, 0x22] 1).req.availIn ∧
      (port 0 0 [0x40, 0x11] 1).req.winIn.byte 0 = (port 1 1 [0x40, 0x22] 1).req.winIn.byte 0 ∧
      lpa .w64 ((port 0 0 [0x40, 0x11] 1).req.winIn.byte 0) = .ok (2, .marker)) ∧
    SamePrefix 2 (port 0 0 [0x40, 0x11, 0x01] 3).req.winIn (port 1 1 [0x40, 0x11, 0x02] 3).req.winIn :=
  ⟨rfl, rfl, rfl, ⟨rfl, by decide⟩, ⟨rfl, rfl, rfl⟩, samePrefix_of (by decide)⟩

theorem witness_AvailSaturatesAtEighteen :
    18 ≤ (port 0 0 [] 18).req.availIn.toNat ∧ 18 ≤ (port 0 0 [] 31).req.availIn.toNat := by decide

theorem witness_StepKeepsResponseAllowed :
    step (command 0x00) = .next (after .encU32 (command 0x00)) ∧
    step ⟨{ Request.zero with cmd := 0x21 }, Response.atReset⟩ =
      .next (after .decU128 ⟨{ Request.zero with cmd := 0x21 }, Response.atReset⟩) := ⟨rfl, rfl⟩

/-- A defined and a reserved word; a request presented over another one's response has its own on the outputs; a step
from a state whose outputs are not those of its inputs. -/
theorem witness_OutputsAreFOfTheInputs :
    decode (command 0x05).req.cmd = .ok .pack32 ∧ decode (command 0x07).req.cmd = .error .operation ∧
    ((command 0x02).present (command 0x00).req).resp = State.reset.resp ∧
    OutputsFollowInputs ((command 0x02).present (command 0x00).req) ∧
    (command 0x05).resp.status = .ok ∧ (after .pack32 (command 0x05)).resp.status = .error .invalidPrefix ∧
    step (command 0x05) = .next (after .pack32 (command 0x05)) :=
  ⟨rfl, rfl, rfl, fun _ h => Option.some.inj h, rfl, rfl, rfl⟩

end Sys2Proof.Tests
end

/-! ## The per-width constants (R6, R7) -/

namespace Sys2Proof.Machine

theorem base_five : base 5 = 270549120 := by decide

theorem base_nine : base 9 = 72624976668147840 := by decide

@[simp] theorem nmark_w32 : nmark .w32 = 4 := rfl
@[simp] theorem nmark_w64 : nmark .w64 = 8 := rfl
@[simp] theorem nmark_w128 : nmark .w128 = 8 := rfl

/-- At width 32 the overflow class begins where the fourth marker class ends. -/
theorem ovfBase_w32 : ovfBase .w32 = 270549120 := by
  rw [ovfBase, nmark_w32, base_five]

/-- At width 64 the overflow class begins where the eighth marker class ends. -/
theorem ovfBase_w64 : ovfBase .w64 = 72624976668147840 := by
  rw [ovfBase, nmark_w64, base_nine]

/-- Width 128 has the marker classes of width 64 (log entry 11), and so the same lowest overflow value. -/
theorem ovfBase_w128 : ovfBase .w128 = 72624976668147840 := by
  rw [ovfBase, nmark_w128, base_nine]

/-- Settles O18: the numbers follow from `M(W)` and the two thresholds `base(5)` and `base(9)`, and the formulas are
the definitions of the constants. -/
theorem widthConstants : Obligations.WidthConstants :=
  ⟨rfl, rfl, rfl, nmark_w32, nmark_w64, nmark_w128, fun _ => ⟨rfl, rfl⟩,
    ovfBase_w32, ovfBase_w64, ovfBase_w128, fun _ _ => rfl⟩

end Sys2Proof.Machine

/-! ## The rows of a family, and which ports they write (R14, R31) -/

namespace Sys2Proof.Machine

open Sys2Proof.Safety

@[simp] theorem width_encU (W : Width) : (Instr.encU W).width = W := by cases W <;> rfl
@[simp] theorem width_encS (W : Width) : (Instr.encS W).width = W := by cases W <;> rfl
@[simp] theorem width_decU (W : Width) : (Instr.decU W).width = W := by cases W <;> rfl
@[simp] theorem width_decS (W : Width) : (Instr.decS W).width = W := by cases W <;> rfl
@[simp] theorem width_peek (W : Width) : (Instr.peek W).width = W := by cases W <;> rfl
@[simp] theorem width_zz (W : Width) : (Instr.zz W).width = W := by cases W <;> rfl
@[simp] theorem width_unzz (W : Width) : (Instr.unzz W).width = W := by cases W <;> rfl
@[simp] theorem width_pack (W : Width) : (Instr.pack W).width = W := by cases W <;> rfl
@[simp] theorem width_unpack (W : Width) : (Instr.unpack W).width = W := by cases W <;> rfl

/-- The operations without a length are ZZ and UNZZ at the width of the row itself, which makes the property
decidable for each row. -/
theorem writesNoLength_iff {i : Instr} : writesNoLength i ↔ i = .zz i.width ∨ i = .unzz i.width := by
  constructor
  · rintro ⟨W, rfl | rfl⟩
    · exact .inl (by rw [width_zz])
    · exact .inr (by rw [width_unzz])
  · exact fun h => ⟨_, h⟩

theorem not_writesNoLength {i : Instr} (h : i ≠ .zz i.width ∧ i ≠ .unzz i.width) : ¬ writesNoLength i :=
  fun hi => (writesNoLength_iff.1 hi).elim h.1 h.2

theorem not_writesNoLength_of_row {i : Instr} (h : i.isCommand = false) : ¬ writesNoLength i := by
  rintro ⟨W, rfl | rfl⟩ <;> cases W <;> cases h

/-- Each `byte0` row answers what PEEK of its width answers to the least first byte with its `Z` leading zero bits,
whatever byte it holds (R36), and R109's matrix has the status of that answer. -/
theorem responseTo_row_eq_lpa {i : Instr} (h : i.isCommand = false) (q : Request) :
    ∃ b, responseTo i q = deliver (fun a => okLength a.1) (lpa i.width b) ∧
      mayReport i (statusOf (lpa i.width b)) = true := by
  cases i with
  | byte0W32Z0 | byte0W64Z0 | byte0W128Z0 => exact ⟨0x80, rfl, rfl⟩
  | byte0W32Z1 | byte0W64Z1 | byte0W128Z1 => exact ⟨0x40, rfl, rfl⟩
  | byte0W32Z2 | byte0W64Z2 | byte0W128Z2 => exact ⟨0x20, rfl, rfl⟩
  | byte0W32Z3 | byte0W64Z3 | byte0W128Z3 => exact ⟨0x10, rfl, rfl⟩
  | byte0W32Z4 | byte0W64Z4 | byte0W128Z4 => exact ⟨0x08, rfl, rfl⟩
  | byte0W32Z5 | byte0W64Z5 | byte0W128Z5 => exact ⟨0x04, rfl, rfl⟩
  | byte0W32Z6 | byte0W64Z6 | byte0W128Z6 => exact ⟨0x02, rfl, rfl⟩
  | byte0W32Z7 | byte0W64Z7 | byte0W128Z7 => exact ⟨0x01, rfl, rfl⟩
  | byte0W32Z8 | byte0W64Z8 | byte0W128Z8 => exact ⟨0x00, rfl, rfl⟩
  | _ => cases h

end Sys2Proof.Machine

/-! ## The errors each computation can raise (R102, R103, R105) -/

namespace Sys2Proof.Machine

open Sys2Proof.Safety

/-- An unsigned operand out of range exists at width 32 and 64 alone (R15). -/
theorem ne_w128_of_not_inRangeU {W : Width} {v : Value} (h : ¬ inRangeU W v.toNat) : W ≠ .w128 := by
  rintro rfl
  exact h (inRangeU_128 v)

/-- A signed operand out of range exists at width 32 and 64 alone (R15). -/
theorem ne_w128_of_not_inRangeS {W : Width} {v : Value} (h : ¬ inRangeS W v.toInt) : W ≠ .w128 := by
  rintro rfl
  exact h (inRangeS_128_self v)

/-- `unpack` truncates at every width and raises `InvalidPrefix` at width 32 alone (R57). -/
theorem unpack_error_kind {W : Width} {w : Window} {avail : Nat} {k : ErrorKind} (h : unpack W w avail = .error k) :
    k = .truncatedInput ∨ (k = .invalidPrefix ∧ W = .w32) := by
  rcases unpack_error h with ⟨hk, _⟩ | ⟨hk, hW, _⟩
  · exact .inl hk
  · exact .inr ⟨hk, hW⟩

/-- `dec_u` hands on an error of `unpack`, or its sum is out of range (R73). -/
theorem decU_error_kind {W : Width} {w : Window} {avail : Nat} {k : ErrorKind} (h : decU W w avail = .error k) :
    unpack W w avail = .error k ∨ k = .outOfRange := by
  cases e : unpack W w avail with
  | error k' =>
    rw [decU_unpack_error e] at h
    cases h
    exact .inl rfl
  | ok a =>
    obtain ⟨hl, ha, _⟩ := unpack_eq_ok.1 e
    rw [decU_form hl ha] at h
    split at h
    · cases h
    · exact .inr (Except.error.inj h).symm

theorem decS_error_iff {W : Width} {w : Window} {avail : Nat} {k : ErrorKind} :
    decS W w avail = .error k ↔ decU W w avail = .error k := by
  cases e : decU W w avail with
  | ok a => simp [decS_ok e]
  | error k' => simp [decS_error e]

/-- Below width 128 every payload fits the value port (R62). -/
theorem payloadOf_lt_two_pow_128 {W : Width} {w : Window} {L : Nat} {f : Form} (hW : W ≠ .w128)
    (h : lpa W (w.byte 0) = .ok (L, f)) : payloadOf f L w < 2 ^ 128 := by
  obtain ⟨h1, hM, hm, _⟩ := lpa_length h
  cases f with
  | marker =>
    obtain ⟨h8, _⟩ := hm rfl
    calc payloadOf .marker L w < 2 ^ (7 * L) := payloadOf_marker_lt w h1 h8
      _ ≤ 2 ^ 128 := Nat.pow_le_pow_right (by decide) (by omega)
  | overflow =>
    have h9 : maxBytes W ≤ 9 := by
      cases W with
      | w32 | w64 => decide
      | w128 => exact absurd rfl hW
    calc payloadOf .overflow L w < 256 ^ (L - 1) := payloadOf_overflow_lt L w
      _ ≤ 256 ^ 16 := Nat.pow_le_pow_right (by decide) (by omega)
      _ = 2 ^ 128 := by decide

/-- UNPACK hands on an error of `unpack`, or is at width 128 and its payload out of range (R62). -/
theorem unpackPayload_error_kind {W : Width} {w : Window} {avail : Nat} {k : ErrorKind}
    (h : unpackPayload W w avail = .error k) : unpack W w avail = .error k ∨ (k = .outOfRange ∧ W = .w128) := by
  cases e : unpack W w avail with
  | error k' =>
    rw [unpackPayload_error e] at h
    cases h
    exact .inl rfl
  | ok a =>
    obtain ⟨hl, ha, _⟩ := unpack_eq_ok.1 e
    rw [unpackPayload_form hl ha] at h
    split at h
    · rename_i hp
      refine .inr ⟨(Except.error.inj h).symm, ?_⟩
      by_contra hW
      exact absurd (payloadOf_lt_two_pow_128 hW hl) (Nat.not_lt.2 hp)
    · cases h

/-- PACK never truncates (R58). -/
theorem packForm_error_kind {W : Width} {L P : Nat} {k : ErrorKind} (h : packForm W L P = .error k) :
    k = .outOfRange ∨ k = .invalidPrefix := by
  rcases packForm_cases W L P with ⟨_, _, _, e⟩ | ⟨_, _, e⟩ | ⟨e, _⟩ | ⟨e, _⟩ <;> rw [h] at e <;> cases e
  · exact .inl rfl
  · exact .inr rfl

end Sys2Proof.Machine

/-! ## Every response is one the rules allow its operation (R14 to R16, R34, R109) -/

namespace Sys2Proof.Machine

open Sys2Proof.Safety

theorem isLength_canonicalForm (W : Width) (v : Nat) : IsLength W (canonicalForm W v).length := by
  obtain ⟨f, h⟩ := lpa_canonicalForm W v
  exact isLength_of_lpa h

theorem isLength_packForm {W : Width} {L P : Nat} {out : List Byte} (h : packForm W L P = .ok out) :
    IsLength W out.length := by
  have hn := nmark_le W
  have hM := nmark_lt_maxBytes W
  obtain ⟨rfl, _, ⟨h1, hL⟩ | hL⟩ := packForm_length h
  · exact ⟨h1, by omega, .inl (by omega)⟩
  · exact ⟨by omega, by omega, .inr hL⟩

/-- A length that exists at a width is what its port shows (R14, R34). -/
theorem toNat_ofNat_five_of_isLength {W : Width} {L : Nat} (h : IsLength W L) : (BitVec.ofNat 5 L).toNat = L := by
  obtain ⟨_, hM, _⟩ := h
  exact toNat_ofNat_five (Nat.le_trans hM (maxBytes_le W))

theorem inRangeU_zero (W : Width) : inRangeU W (0 : Value).toNat := by cases W <;> decide

theorem inRangeS_zero (W : Width) : inRangeS W (0 : Value).toInt := by cases W <;> decide

/-- A response whose value port is zero has its value in every range (R15). -/
theorem allowed_of_valOut_zero {i : Instr} {r : Response} (hv : r.valOut = 0) (hm : mayReport i r.status = true)
    (hc : Clean i r) (hl : r.status = .ok → ¬ writesNoLength i → IsLength i.width r.lenOut.toNat) : Allowed i r :=
  ⟨hm, hc, hl, fun _ => hv ▸ inRangeU_zero _, fun _ => hv ▸ inRangeS_zero _⟩

/-- An error is allowed where the matrix has its status (R106, R109). -/
theorem allowed_raise {i : Instr} {k : ErrorKind} (hm : mayReport i (.error k) = true) : Allowed i (raise k) :=
  allowed_of_valOut_zero rfl hm
    ⟨fun _ => rfl, fun _ => rfl, fun _ => rfl, fun j _ _ => byte_zero j, fun _ => ⟨rfl, rfl, rfl⟩⟩ nofun

theorem allowed_okLength {i : Instr} {L : Nat} (hm : mayReport i .ok = true) (hn : ¬ writesNoLength i)
    (hL : IsLength i.width L) : Allowed i (okLength L) :=
  allowed_of_valOut_zero rfl hm
    ⟨fun _ => rfl, fun h => absurd h hn, fun _ => rfl, fun j _ _ => byte_zero j, fun h => absurd rfl h⟩
    fun _ _ => by rwa [okLength_lenOut, toNat_ofNat_five_of_isLength hL]

theorem allowed_okForm {i : Instr} {out : List Byte} (hm : mayReport i .ok = true) (hw : writesWindow i)
    (hn : ¬ writesNoLength i) (hL : IsLength i.width out.length) : Allowed i (okForm out) := by
  have hlen : (okForm out).lenOut.toNat = out.length := toNat_ofNat_five_of_isLength hL
  refine allowed_of_valOut_zero rfl hm
    ⟨fun _ => rfl, fun h => absurd h hn, fun h => absurd hw h, fun j hj h18 => ?_, fun h => absurd rfl h⟩
    fun _ _ => by rwa [hlen]
  rw [hlen] at hj
  rw [okForm_winOut, byte_memWrite out h18, List.getD_eq_default _ _ hj]

theorem allowed_okValue {i : Instr} {v : Value} {L : Nat} (hm : mayReport i .ok = true) (hw : writesValue i)
    (hn : writesNoLength i → L = 0) (hL : ¬ writesNoLength i → IsLength i.width L)
    (hu : i = .decU i.width ∨ i = .zz i.width → inRangeU i.width v.toNat)
    (hs : i = .decS i.width ∨ i = .unzz i.width → inRangeS i.width v.toInt) : Allowed i (okValue v L) := by
  refine ⟨hm, ⟨fun h => absurd hw h, fun h => ?_, fun _ => rfl, fun j _ _ => byte_zero j, fun h => absurd rfl h⟩,
    fun _ h => ?_, hu, hs⟩
  · rw [hn h]
    rfl
  · rw [okValue_lenOut, toNat_ofNat_five_of_isLength (hL h)]
    exact hL h

/-- A computation's response is allowed when each result it can have and each error it can raise is (R106). -/
theorem allowed_deliver {α : Type} {i : Instr} {f : α → Response} {x : Except ErrorKind α}
    (hok : ∀ a, x = .ok a → Allowed i (f a)) (herr : ∀ k, x = .error k → mayReport i (.error k) = true) :
    Allowed i (deliver f x) := by
  cases x with
  | ok a => exact hok a rfl
  | error k => exact allowed_raise (herr k rfl)

/-- A length the analyzer finds, or its error, is allowed of an operation that reports a length (R50, R51). -/
theorem allowed_lpa {i : Instr} {b : Byte} (hn : ¬ writesNoLength i)
    (hm : mayReport i (statusOf (lpa i.width b)) = true) :
    Allowed i (deliver (fun a => okLength a.1) (lpa i.width b)) :=
  allowed_deliver (fun _ e => allowed_okLength (by rwa [e] at hm) hn (isLength_of_lpa e))
    fun _ e => by rwa [e] at hm

/-- The error every range test raises is in the matrix at the two widths where it can fail (R109). -/
theorem mayReport_outOfRange {W : Width} (h : W ≠ .w128) :
    mayReport (.encU W) (.error .outOfRange) = true ∧ mayReport (.encS W) (.error .outOfRange) = true ∧
    mayReport (.zz W) (.error .outOfRange) = true ∧ mayReport (.unzz W) (.error .outOfRange) = true := by
  cases W with
  | w32 | w64 => decide
  | w128 => exact absurd rfl h

/-- The errors of `unpack` are in the matrix for the three families that read a form (R109). -/
theorem mayReport_unpack_error {W : Width} {w : Window} {avail : Nat} {k : ErrorKind} (h : unpack W w avail = .error k) :
    mayReport (.unpack W) (.error k) = true ∧ mayReport (.decU W) (.error k) = true ∧
    mayReport (.decS W) (.error k) = true := by
  rcases unpack_error_kind h with rfl | ⟨rfl, rfl⟩
  · cases W <;> decide
  · decide

/-- So are those of `dec_u` for both decoders (R109). -/
theorem mayReport_decU_error {W : Width} {w : Window} {avail : Nat} {k : ErrorKind} (h : decU W w avail = .error k) :
    mayReport (.decU W) (.error k) = true ∧ mayReport (.decS W) (.error k) = true := by
  rcases decU_error_kind h with h | rfl
  · exact (mayReport_unpack_error h).2
  · cases W <;> decide

theorem allowed_encU (W : Width) (q : Request) : Allowed (.encU W) (responseTo (.encU W) q) := by
  rw [responseTo_encU]
  by_cases h : inRangeU W q.valUnsigned
  · rw [encU_ok h]
    exact allowed_okForm (by cases W <;> rfl) ⟨W, .inl rfl⟩ (not_writesNoLength (by cases W <;> decide))
      (by simpa using isLength_canonicalForm W _)
  · rw [encU_error h]
    obtain ⟨hm, _⟩ := mayReport_outOfRange (ne_w128_of_not_inRangeU h)
    exact allowed_raise hm

theorem allowed_encS (W : Width) (q : Request) : Allowed (.encS W) (responseTo (.encS W) q) := by
  rw [responseTo_encS]
  by_cases h : inRangeS W q.valSigned
  · rw [encS_ok h]
    exact allowed_okForm (by cases W <;> rfl) ⟨W, .inr (.inl rfl)⟩ (not_writesNoLength (by cases W <;> decide))
      (by simpa using isLength_canonicalForm W _)
  · rw [encS_error h]
    obtain ⟨_, hm, _⟩ := mayReport_outOfRange (ne_w128_of_not_inRangeS h)
    exact allowed_raise hm

theorem allowed_pack (W : Width) (q : Request) : Allowed (.pack W) (responseTo (.pack W) q) := by
  rw [responseTo_pack]
  refine allowed_deliver (fun out e => ?_) fun k e => ?_
  · exact allowed_okForm (by cases W <;> rfl) ⟨W, .inr (.inr rfl)⟩ (not_writesNoLength (by cases W <;> decide))
      (by simpa using isLength_packForm e)
  · rcases packForm_error_kind e with rfl | rfl <;> cases W <;> rfl

theorem allowed_peek (W : Width) (q : Request) : Allowed (.peek W) (responseTo (.peek W) q) := by
  have hm : mayReport (.peek W) (statusOf (lpa W q.firstByte)) = true := by
    cases e : lpa W q.firstByte with
    | ok a => cases W <;> rfl
    | error k =>
      obtain ⟨rfl, rfl⟩ := lpa_error e
      rfl
  have h := allowed_lpa (i := .peek W) (b := q.firstByte) (not_writesNoLength (by cases W <;> decide))
  rw [width_peek] at h
  rw [responseTo_peek]
  exact h hm

theorem allowed_row {i : Instr} (h : i.isCommand = false) (q : Request) : Allowed i (responseTo i q) := by
  obtain ⟨b, e, hm⟩ := responseTo_row_eq_lpa h q
  rw [e]
  exact allowed_lpa (not_writesNoLength_of_row h) hm

theorem allowed_unpack (W : Width) (q : Request) : Allowed (.unpack W) (responseTo (.unpack W) q) := by
  have hn : ¬ writesNoLength (.unpack W) := not_writesNoLength (by cases W <;> decide)
  rw [responseTo_unpack]
  refine allowed_deliver (fun a e => ?_) fun k e => ?_
  · obtain ⟨f, hl, _⟩ := unpackPayload_eq_ok e
    exact allowed_okValue (by cases W <;> rfl) ⟨W, .inr (.inr (.inr (.inr rfl)))⟩ (fun h => absurd h hn)
      (fun _ => by simpa using isLength_of_lpa hl) (fun h => absurd h (by cases W <;> decide))
      fun h => absurd h (by cases W <;> decide)
  · rcases unpackPayload_error_kind e with h | ⟨rfl, rfl⟩
    · exact (mayReport_unpack_error h).1
    · rfl

theorem allowed_decU (W : Width) (q : Request) : Allowed (.decU W) (responseTo (.decU W) q) := by
  have hn : ¬ writesNoLength (.decU W) := not_writesNoLength (by cases W <;> decide)
  rw [responseTo_decU]
  refine allowed_deliver (fun a e => ?_) fun k e => (mayReport_decU_error e).1
  obtain ⟨f, hl, _, _, hr⟩ := decU_eq_ok e
  exact allowed_okValue (by cases W <;> rfl) ⟨W, .inl rfl⟩ (fun h => absurd h hn)
    (fun _ => by simpa using isLength_of_lpa hl) (fun _ => by rwa [width_decU, ofUnsigned_toNat hr])
    fun h => absurd h (by cases W <;> decide)

theorem allowed_decS (W : Width) (q : Request) : Allowed (.decS W) (responseTo (.decS W) q) := by
  have hn : ¬ writesNoLength (.decS W) := not_writesNoLength (by cases W <;> decide)
  rw [responseTo_decS]
  cases e : decU W q.winIn q.avail with
  | ok a =>
    obtain ⟨f, hl, _, _, hr⟩ := decU_eq_ok e
    rw [decS_ok e]
    have hs := unzigzag_inRange hr
    exact allowed_okValue (by cases W <;> rfl) ⟨W, .inr (.inl rfl)⟩ (fun h => absurd h hn)
      (fun _ => by simpa using isLength_of_lpa hl) (fun h => absurd h (by cases W <;> decide))
      fun _ => by rwa [width_decS, ofSigned_toInt hs]
  | error k =>
    rw [decS_error e]
    exact allowed_raise (mayReport_decU_error e).2

theorem allowed_zz (W : Width) (q : Request) : Allowed (.zz W) (responseTo (.zz W) q) := by
  rw [responseTo_zz]
  by_cases h : inRangeS W q.valSigned
  · have hu := zigzag_inRange W q.valSigned
    rw [zz_ok h]
    exact allowed_okValue (by cases W <;> rfl) ⟨W, .inr (.inr (.inl rfl))⟩ (fun _ => rfl)
      (fun h => absurd ⟨W, .inl rfl⟩ h) (fun _ => by rwa [width_zz, ofUnsigned_toNat hu])
      fun h => absurd h (by cases W <;> decide)
  · rw [zz_error h]
    obtain ⟨_, _, hm, _⟩ := mayReport_outOfRange (ne_w128_of_not_inRangeS h)
    exact allowed_raise hm

theorem allowed_unzz (W : Width) (q : Request) : Allowed (.unzz W) (responseTo (.unzz W) q) := by
  rw [responseTo_unzz]
  by_cases h : inRangeU W q.valUnsigned
  · have hs := unzigzag_inRange h
    rw [unzz_ok h]
    exact allowed_okValue (by cases W <;> rfl) ⟨W, .inr (.inr (.inr (.inl rfl)))⟩ (fun _ => rfl)
      (fun h => absurd ⟨W, .inr rfl⟩ h) (fun h => absurd h (by cases W <;> decide))
      fun _ => by rwa [width_unzz, ofSigned_toInt hs]
  · rw [unzz_error h]
    obtain ⟨_, _, _, hm⟩ := mayReport_outOfRange (ne_w128_of_not_inRangeU h)
    exact allowed_raise hm

/-- Every row, on every request, answers a response the rules allow it. -/
theorem allowed_responseTo (i : Instr) (q : Request) : Allowed i (responseTo i q) := by
  cases h : i.isCommand with
  | false => exact allowed_row h q
  | true =>
    obtain ⟨W, rfl | rfl | rfl | rfl | rfl | rfl | rfl | rfl | rfl⟩ := command_cases h
    · exact allowed_encU W q
    · exact allowed_encS W q
    · exact allowed_decU W q
    · exact allowed_decS W q
    · exact allowed_peek W q
    · exact allowed_zz W q
    · exact allowed_unzz W q
    · exact allowed_pack W q
    · exact allowed_unpack W q

/-- Settles O50: a step answers the response of the command its word decodes to, and keeps the word. -/
theorem stepKeepsResponseAllowed : Obligations.StepKeepsResponseAllowed := by
  intro s s' h i hi
  obtain ⟨j, hj, rfl⟩ := step_eq_next h
  cases hj.symm.trans hi
  exact allowed_responseTo i s.req

/-- Settles O43: an allowed response is clean, for every row. -/
theorem unwrittenPortsAreZero : Obligations.UnwrittenPortsAreZero := by
  intro i s t h
  rw [exec_eq_next.1 h]
  obtain ⟨_, hclean, _⟩ := allowed_responseTo i s.req
  exact ⟨hclean, rfl⟩

end Sys2Proof.Machine

/-! ## The machine as a whole (10_state.md, 60_exceptions.md) -/

namespace Sys2Proof.Machine

open Sys2Proof.Safety

/-- A defined command word makes the step answer `F` of the request (R12). -/
theorem step_next_of_decode {s : State} {i : Instr} (h : decode s.req.cmd = .ok i) :
    step s = .next { s with resp := responseTo i s.req } :=
  (step_of_decode h).trans (exec_eq i s)

/-- A command word of the opcode table's numbering fits the port, and the port's decoder reads it (R30). -/
theorem decode_of_decodeTableWord {nbits w : Nat} {i : Instr} (h : decodeTableWord nbits w = some i) :
    w < 2 ^ 8 ∧ decode (BitVec.ofNat 8 w) = .ok i := by
  unfold decodeTableWord at h
  split at h
  · rename_i hw
    cases e : decode (BitVec.ofNat 8 w) with
    | ok j =>
      rw [e] at h
      exact ⟨hw.2, congrArg Except.ok (Option.some.inj h)⟩
    | error why =>
      rw [e] at h
      cases h
  · cases h

/-- Presenting a request leaves `F` of it on the outputs, whatever stood there (R12, R122). -/
theorem outputsFollowInputs_present (s : State) (q : Request) : OutputsFollowInputs (s.present q) := by
  intro r h
  rw [present_req] at h
  rw [present_resp, h, Option.getD_some]

/-- Settles O47: what a step answers is `responseTo` of the request, in which no response port stands. -/
theorem responseIsAFunctionOfTheRequest : Obligations.ResponseIsAFunctionOfTheRequest := by
  refine fun s => ⟨fun ⟨i, hi⟩ => ⟨_, step_next_of_decode hi⟩, fun t h => ?_⟩
  obtain ⟨i, hi, rfl⟩ := step_eq_next h
  refine ⟨rfl, step_next_of_decode hi, fun s' hs => ⟨_, step_next_of_decode (hs ▸ hi), ?_⟩⟩
  rw [hs]

/-- Settles O48: each family's response is written in the ports it reads, and `unpack` in the bytes it reads. -/
theorem unreadInputsHaveNoEffect : Obligations.UnreadInputsHaveNoEffect := by
  refine fun W s s' => ⟨fun hv => ?_, fun hv hl => ?_, fun hb => ?_, fun ha h0 hf => ?_⟩
  · have hu : s.req.valUnsigned = s'.req.valUnsigned := congrArg BitVec.toNat hv
    have hs : s.req.valSigned = s'.req.valSigned := congrArg BitVec.toInt hv
    exact ⟨sameResponse_of_eq (by simp [hu]), sameResponse_of_eq (by simp [hs]),
      sameResponse_of_eq (by simp [hs]), sameResponse_of_eq (by simp [hu])⟩
  · exact sameResponse_of_eq (by simp [Request.classLength, Request.valUnsigned, hv, hl])
  · exact sameResponse_of_eq (by simp [Request.firstByte, hb])
  · have havail : s'.req.avail = s.req.avail := by simp [Request.avail, ha]
    have hunpack : unpack W s.req.winIn s.req.avail = unpack W s'.req.winIn s.req.avail :=
      unpack_congr (fun h1 => h0 (Nat.le_trans h1 (Nat.min_le_left _ _))) hf
    have hdec := decU_congr hunpack
    exact ⟨sameResponse_of_eq (by simp [havail, hdec]), sameResponse_of_eq (by simp [havail, decS, hdec]),
      sameResponse_of_eq (by simp [havail, unpackPayload, hunpack])⟩

/-- Settles O53: `F` is `responseTo` of the decoded command, which presenting and stepping put on the outputs. -/
theorem outputsAreFOfTheInputs : Obligations.OutputsAreFOfTheInputs := by
  refine ⟨fun s i hi => ⟨_, response_of_decode hi, exec_eq i s⟩, fun q why h => response_of_reserved h,
    fun s q => ⟨rfl, outputsFollowInputs_present s q⟩, fun s nbits w => outputsFollowInputs_present s _,
    fun s t h r hr => ?_, fun s i hi hf => ?_⟩
  · obtain ⟨i, hi, rfl⟩ := step_eq_next h
    exact Option.some.inj ((response_of_decode hi).symm.trans hr)
  · rw [step_next_of_decode hi, ← hf _ (response_of_decode hi)]

/-- Settles O4: the word on the port is the one `decodeTableWord` read, so the step runs its instruction. -/
theorem stepRunsDecodedInstruction : Obligations.StepRunsDecodedInstruction := by
  refine ⟨fun s i hi => step_of_decode hi, fun s w i h => step_of_decode ?_⟩
  obtain ⟨hw, hi⟩ := decode_of_decodeTableWord h
  rwa [withFetchWord_cmd, Nat.mod_eq_of_lt hw]

/-- Settles O42: the codes are R101's by definition. -/
theorem statusCodes : Obligations.StatusCodes :=
  ⟨rfl, rfl, rfl, rfl⟩

/-- Settles O46: every row answers `responseTo` of the request. -/
theorem everyOperationCompletes : Obligations.EveryOperationCompletes :=
  fun i s => ⟨_, exec_eq i s⟩

/-- Settles O52: the command at reset is ENC.U32 of 0, whose response is the one at reset. -/
theorem resetIsSettled : Obligations.ResetIsSettled :=
  rfl

/-- Settles O51: the response at reset is left there by a step, the one from reset itself. -/
theorem resetResponseAllowed : Obligations.ResetResponseAllowed :=
  stepKeepsResponseAllowed _ _ resetIsSettled

end Sys2Proof.Machine

/-! ## The count of valid bytes (20_memory.md) -/

namespace Sys2Proof.Machine

open Sys2Proof.Safety

/-- A response depends on `avail_in` only through the saturated count `avail`: DEC and UNPACK read that count, the other
commands read other ports, and a `byte0` row reads none (R21, R23). -/
theorem sameResponse_withAvail (i : Instr) {s : State} {n : Count} (h : s.req.avail = (withAvail s n).req.avail) :
    SameResponse i s (withAvail s n) := by
  cases hi : i.isCommand with
  | false => exact sameResponse_of_eq (responseTo_row hi _ _)
  | true =>
    obtain ⟨W, hW⟩ := command_cases hi
    obtain ⟨readsValue, readsLength, readsFirstByte, -⟩ := unreadInputsHaveNoEffect W s (withAvail s n)
    obtain ⟨hencU, hencS, hzz, hunzz⟩ := readsValue rfl
    have hwin : s.req.winIn = (withAvail s n).req.winIn := rfl
    obtain rfl | rfl | rfl | rfl | rfl | rfl | rfl | rfl | rfl := hW
    · exact hencU
    · exact hencS
    · exact sameResponse_of_eq (by rw [responseTo_decU, responseTo_decU, hwin, h])
    · exact sameResponse_of_eq (by rw [responseTo_decS, responseTo_decS, hwin, h])
    · exact readsFirstByte rfl
    · exact hzz
    · exact hunzz
    · exact readsLength rfl rfl
    · exact sameResponse_of_eq (by rw [responseTo_unpack, responseTo_unpack, hwin, h])

/-- Settles O49: a count of at least 18 and the count 18 saturate to the same `avail`. -/
theorem availSaturatesAtEighteen : Obligations.AvailSaturatesAtEighteen :=
  fun i s h => sameResponse_withAvail i ((avail_eq s).trans (Nat.min_eq_right h))

end Sys2Proof.Machine

/-! ## Command words and rows (30_encoding.md) -/

namespace Sys2Proof.Machine

open Sys2Proof.Safety Sys2Proof.Laws

/-- The per-row encoding lemmas, gathered over the opcode table (R45). -/
theorem decodeAs_encode : ∀ i : Instr, Encoding.Statement i
  | .encU32 => Encoding.encU32 | .encS32 => Encoding.encS32 | .decU32 => Encoding.decU32
  | .decS32 => Encoding.decS32 | .peek32 => Encoding.peek32 | .zz32 => Encoding.zz32
  | .unzz32 => Encoding.unzz32 | .pack32 => Encoding.pack32 | .unpack32 => Encoding.unpack32
  | .encU64 => Encoding.encU64 | .encS64 => Encoding.encS64 | .decU64 => Encoding.decU64
  | .decS64 => Encoding.decS64 | .peek64 => Encoding.peek64 | .zz64 => Encoding.zz64
  | .unzz64 => Encoding.unzz64 | .pack64 => Encoding.pack64 | .unpack64 => Encoding.unpack64
  | .encU128 => Encoding.encU128 | .encS128 => Encoding.encS128 | .decU128 => Encoding.decU128
  | .decS128 => Encoding.decS128 | .peek128 => Encoding.peek128 | .zz128 => Encoding.zz128
  | .unzz128 => Encoding.unzz128 | .pack128 => Encoding.pack128 | .unpack128 => Encoding.unpack128
  | .byte0W32Z0 b => Encoding.byte0W32Z0 b | .byte0W32Z1 b => Encoding.byte0W32Z1 b
  | .byte0W32Z2 b => Encoding.byte0W32Z2 b | .byte0W32Z3 b => Encoding.byte0W32Z3 b
  | .byte0W32Z4 b => Encoding.byte0W32Z4 b | .byte0W32Z5 b => Encoding.byte0W32Z5 b
  | .byte0W32Z6 b => Encoding.byte0W32Z6 b | .byte0W32Z7 b => Encoding.byte0W32Z7 b
  | .byte0W32Z8 b => Encoding.byte0W32Z8 b
  | .byte0W64Z0 b => Encoding.byte0W64Z0 b | .byte0W64Z1 b => Encoding.byte0W64Z1 b
  | .byte0W64Z2 b => Encoding.byte0W64Z2 b | .byte0W64Z3 b => Encoding.byte0W64Z3 b
  | .byte0W64Z4 b => Encoding.byte0W64Z4 b | .byte0W64Z5 b => Encoding.byte0W64Z5 b
  | .byte0W64Z6 b => Encoding.byte0W64Z6 b | .byte0W64Z7 b => Encoding.byte0W64Z7 b
  | .byte0W64Z8 b => Encoding.byte0W64Z8 b
  | .byte0W128Z0 b => Encoding.byte0W128Z0 b | .byte0W128Z1 b => Encoding.byte0W128Z1 b
  | .byte0W128Z2 b => Encoding.byte0W128Z2 b | .byte0W128Z3 b => Encoding.byte0W128Z3 b
  | .byte0W128Z4 b => Encoding.byte0W128Z4 b | .byte0W128Z5 b => Encoding.byte0W128Z5 b
  | .byte0W128Z6 b => Encoding.byte0W128Z6 b | .byte0W128Z7 b => Encoding.byte0W128Z7 b
  | .byte0W128Z8 b => Encoding.byte0W128Z8 b

theorem wf_of_command {i : Instr} (h : i.isCommand = true) : i.wf = true := by
  obtain ⟨W, rfl | rfl | rfl | rfl | rfl | rfl | rfl | rfl | rfl⟩ := command_cases h <;> cases W <;> rfl

/-- A command's word decodes to it (R31). -/
theorem decode_encode {i : Instr} (h : i.isCommand = true) : decode (encode i) = .ok i := by
  have hs := decodeAs_encode i (wf_of_command h)
  rwa [decodeAs, if_pos h] at hs

/-- A well-formed `byte0` row is the one its first byte decodes to at its width (R36, R45). -/
theorem eq_decodeByte0 {i : Instr} (hwf : i.wf = true) (hrow : i.isCommand = false) :
    i = decodeByte0 i.width (encode i) := by
  have hs := decodeAs_encode i hwf
  rw [decodeAs, hrow] at hs
  exact (Except.ok.inj hs).symm

/-- What a command word decodes to is a command with that word (R30, R31). -/
theorem command_of_decode {cmd : Byte} {i : Instr} (h : decode cmd = .ok i) : i.isCommand = true ∧ encode i = cmd := by
  have hall : ∀ w : Byte, (decode w).toOption.all (fun j => j.isCommand && encode j == w) = true := by decide
  simpa [h, Except.toOption] using hall cmd

theorem decodeByte0_wf (W : Width) (b : Byte) : (decodeByte0 W b).wf = true := by
  cases W <;> revert b <;> decide

@[simp] theorem decodeByte0_isCommand (W : Width) (b : Byte) : (decodeByte0 W b).isCommand = false := by
  cases W <;> simp only [decodeByte0] <;> split_ifs <;> rfl

@[simp] theorem decodeByte0_width (W : Width) (b : Byte) : (decodeByte0 W b).width = W := by
  cases W <;> simp only [decodeByte0] <;> split_ifs <;> rfl

@[simp] theorem encode_decodeByte0 (W : Width) (b : Byte) : encode (decodeByte0 W b) = b := by
  cases W <;> simp only [decodeByte0] <;> split_ifs <;> rfl

/-- Settles O3: the per-row lemmas give the round trip, and a row's own round trip makes it the only row of its first
byte. -/
theorem encodingsRoundTrip : Obligations.EncodingsRoundTrip := by
  refine ⟨decodeAs_encode, fun _ _ => command_of_decode, fun W b => ⟨decodeByte0_wf W b, decodeByte0_isCommand W b,
    decodeByte0_width W b, encode_decodeByte0 W b, ?_⟩⟩
  rintro j hwf hrow rfl rfl
  exact eq_decodeByte0 hwf hrow

/-- A first byte of a row has the leading zero bits of the row's pattern: `z` of them for the mask of `z + 1` bits and
the pattern with bit `7 - z` set, which at `z = 8` is the pattern 0x00 (R36, R45). -/
theorem clz8_of_inRow {z : Nat} (hz : z ≤ 8) {b : Byte} (h : inRow (0xFF#8 <<< (7 - z)) (0x80#8 >>> z) b = true) :
    clz8 b = clz8 (0x80#8 >>> z) := by
  revert b
  interval_cases z <;> decide

/-- A row that answers by the analyzer for its pattern does so for each of its first bytes (R36, R50). -/
theorem responseTo_of_inRow {i : Instr} {q : Request} (z : Nat) (hz : z ≤ 8)
    (hwf : inRow (0xFF#8 <<< (7 - z)) (0x80#8 >>> z) (encode i) = true)
    (h : responseTo i q = deliver (fun a => okLength a.1) (lpa i.width (0x80#8 >>> z))) :
    responseTo i q = deliver (fun a => okLength a.1) (lpa i.width (encode i)) := by
  rw [h, lpa, lpa, clz8_of_inRow hz hwf]

/-- A well-formed `byte0` row answers the length or the error the analyzer finds in its byte: R36's table, row by row,
against R50's algorithm. -/
theorem responseTo_row_of_wf {i : Instr} (hwf : i.wf = true) (hrow : i.isCommand = false) (q : Request) :
    responseTo i q = deliver (fun a => okLength a.1) (lpa i.width (encode i)) := by
  cases i with
  | byte0W32Z0 | byte0W64Z0 | byte0W128Z0 => exact responseTo_of_inRow 0 (by decide) hwf rfl
  | byte0W32Z1 | byte0W64Z1 | byte0W128Z1 => exact responseTo_of_inRow 1 (by decide) hwf rfl
  | byte0W32Z2 | byte0W64Z2 | byte0W128Z2 => exact responseTo_of_inRow 2 (by decide) hwf rfl
  | byte0W32Z3 | byte0W64Z3 | byte0W128Z3 => exact responseTo_of_inRow 3 (by decide) hwf rfl
  | byte0W32Z4 | byte0W64Z4 | byte0W128Z4 => exact responseTo_of_inRow 4 (by decide) hwf rfl
  | byte0W32Z5 | byte0W64Z5 | byte0W128Z5 => exact responseTo_of_inRow 5 (by decide) hwf rfl
  | byte0W32Z6 | byte0W64Z6 | byte0W128Z6 => exact responseTo_of_inRow 6 (by decide) hwf rfl
  | byte0W32Z7 | byte0W64Z7 | byte0W128Z7 => exact responseTo_of_inRow 7 (by decide) hwf rfl
  | byte0W32Z8 | byte0W64Z8 | byte0W128Z8 => exact responseTo_of_inRow 8 (by decide) hwf rfl
  | _ => cases hrow

/-- Settles O7: a well-formed row answers by the analyzer, as PEEK does, and the row a first byte decodes to is one. -/
theorem firstByteRowsAgreeWithPeek : Obligations.FirstByteRowsAgreeWithPeek := by
  intro W s
  have hagree : ∀ i : Instr, i.wf = true → i.isCommand = false → i.width = W → encode i = s.req.winIn.byte 0 →
      exec i s = exec (.peek W) s := by
    rintro i hwf hrow rfl hb
    rw [exec_eq, exec_eq, responseTo_row_of_wf hwf hrow, responseTo_peek, hb, Request.firstByte]
  exact ⟨(hagree _ (decodeByte0_wf W _) (decodeByte0_isCommand W _) (decodeByte0_width W _)
    (encode_decodeByte0 W _)).symm, hagree⟩

/-! ### The command words of R31 and R32 -/

/-- The fields of a written command word come apart again (R30). -/
theorem decode_commandWord (W : Width) (sgn : Fin 2) (op : Fin 8) :
    decode (commandWord W sgn op) = decodeOperation W (BitVec.ofNat 1 sgn) (BitVec.ofNat 3 op) := by
  cases W <;> revert sgn op <;> decide

/-- The operations whose `sgn` is "0 only" are reserved with `sgn = 1` (R31). -/
theorem decodeOperation_signed (W : Width) {op : Nat} (h2 : 2 ≤ op) (h6 : op ≤ 6) :
    decodeOperation W 1 (BitVec.ofNat 3 op) = .error .signedOperation := by
  interval_cases op <;> rfl

/-- Settles O1: the decoder reaches R31's table of operations with the fields the word was written from. -/
theorem commandWordsSelectOperations : Obligations.CommandWordsSelectOperations := fun W =>
  ⟨decode_commandWord W 0 0, decode_commandWord W 1 0, decode_commandWord W 0 1, decode_commandWord W 1 1,
    decode_commandWord W 0 2, decode_commandWord W 0 3, decode_commandWord W 0 4, decode_commandWord W 0 5,
    decode_commandWord W 0 6,
    fun op h2 h6 => ⟨_, (decode_commandWord W 1 ⟨op, by omega⟩).trans (decodeOperation_signed W h2 h6)⟩,
    fun sgn hs => ⟨_, decode_commandWord W ⟨sgn, by omega⟩ 7⟩⟩

/-- A step is refused exactly when the decoder gives the word no command (R32). -/
theorem step_refused_iff {s : State} :
    (∃ why, step s = .refused (.reservedCommand why)) ↔ ∀ i, decode s.req.cmd ≠ .ok i := by
  cases h : decode s.req.cmd with
  | ok i => simp [step_of_decode h, exec_eq]
  | error why => simp [step, h]

/-- The words without a command are those of R32's four conditions. -/
theorem decode_ne_ok_iff (cmd : Byte) : (∀ i, decode cmd ≠ .ok i) ↔
    (cmd.toNat / 64 ≠ 0 ∨ cmd.toNat / 16 % 4 = 3 ∨ cmd.toNat % 8 = 7 ∨
      (cmd.toNat / 8 % 2 = 1 ∧ 2 ≤ cmd.toNat % 8 ∧ cmd.toNat % 8 ≤ 6)) := by
  have hopt : ∀ x : Except Reserved Instr, (∀ i, x ≠ .ok i) ↔ x.toOption = none := by
    rintro (_ | _) <;> simp [Except.toOption]
  rw [hopt]
  revert cmd
  decide

/-- The words without a command are those that no command is encoded as (R32). -/
theorem decode_ne_ok_iff_encode (cmd : Byte) :
    (∀ i, decode cmd ≠ .ok i) ↔ ∀ i : Instr, i.isCommand = true → encode i ≠ cmd := by
  constructor
  · rintro h i hi rfl
    exact h i (decode_encode hi)
  · intro h i hi
    obtain ⟨hcmd, henc⟩ := command_of_decode hi
    exact h i hcmd henc

/-- Settles O2: both descriptions are of the words the decoder gives no command, and the count is over all words. -/
theorem reservedCommandWordsRefused : Obligations.ReservedCommandWordsRefused :=
  ⟨fun s => ⟨step_refused_iff.trans (decode_ne_ok_iff s.req.cmd),
    step_refused_iff.trans (decode_ne_ok_iff_encode s.req.cmd)⟩, rfl⟩

/-- Settles O5: the two decoders evaluate on the written-out words. -/
theorem writtenOutWordsDecode : Obligations.WrittenOutWordsDecode :=
  ⟨rfl, rfl, rfl, rfl, rfl, rfl, rfl, rfl, rfl, rfl, rfl, rfl⟩

/-- Settles O6: each row's response is its line of R36's table, whatever the state and the byte. -/
theorem firstByteRowsAnswer : Obligations.FirstByteRowsAnswer := by
  intro s b
  and_intros <;> rfl

end Sys2Proof.Machine

/-! ## The thresholds and the classes (R33, R34) -/

namespace Sys2Proof.Machine

open Sys2Proof.Safety

/-- The bits of `base(L)` all lie below bit `7L` (R33). -/
theorem base_lt {L : Nat} (h : 1 ≤ L) : base L < 2 ^ (7 * L) := by
  induction L, h using Nat.le_induction with
  | base => decide
  | succ L h ih =>
    rw [base_succ h, Nat.mul_succ, Nat.pow_add]
    omega

theorem base_eq_sum {L : Nat} (h : 1 ≤ L) : base L = ∑ i ∈ Finset.Icc 1 (L - 1), 2 ^ (7 * i) := by
  induction L, h using Nat.le_induction with
  | base => rfl
  | succ L h ih =>
    obtain ⟨n, rfl⟩ := Nat.exists_eq_add_of_le' h
    rw [base_succ h, ih, Nat.add_sub_cancel, Nat.add_sub_cancel, Finset.sum_Icc_succ_top (by omega)]

/-- The recurrence adds one bit above all the others (R33). -/
theorem testBit_base_succ {L : Nat} (h : 1 ≤ L) (k : Nat) :
    (base (L + 1)).testBit k = (decide (7 * L = k) || (base L).testBit k) := by
  have hor := Nat.two_pow_add_eq_or_of_lt (base_lt h) 1
  rw [Nat.mul_one] at hor
  rw [base_succ h, Nat.add_comm, hor, Nat.testBit_or, Nat.testBit_two_pow]

theorem testBit_base {L : Nat} (h : 1 ≤ L) (k : Nat) :
    (base L).testBit k = true ↔ k % 7 = 0 ∧ 7 ≤ k ∧ k ≤ 7 * (L - 1) := by
  induction L, h using Nat.le_induction with
  | base =>
    rw [base_one, Nat.zero_testBit, Bool.false_eq_true, false_iff]
    omega
  | succ L h ih =>
    rw [testBit_base_succ h, Bool.or_eq_true, decide_eq_true_iff, ih]
    omega

/-- Settles O19: the sum and the bits follow from the recurrence by induction, and the printed values by evaluation. -/
theorem thresholds : Obligations.Thresholds :=
  ⟨fun _ h => ⟨base_eq_sum h, base_succ h, testBit_base h⟩, by decide⟩

/-- The classes of a width hold values of its range alone (R34). -/
theorem inRangeU_of_inClass {W : Width} {v L : Nat} (h : InClass W v L) : inRangeU W v := by
  obtain ⟨_, hL, _, hhi⟩ | ⟨_, _, hv⟩ := h
  · exact Nat.le_trans (Nat.le_of_lt (lt_ovfBase hL hhi)) (ovfBase_le W)
  · exact hv

/-- Settles O20: the class search finds a class of each value in range, and every class of the value is the one it
finds. -/
theorem classesPartitionTheRange : Obligations.ClassesPartitionTheRange := fun _ _ =>
  ⟨fun hv => ⟨_, inClass_classOf hv, fun _ => inClass_length_eq⟩,
    fun hv _ h => Nat.not_lt.2 (inRangeU_of_inClass h) hv⟩

/-! ## The encoder as a pack, and no canonical form at the front of another (R40) -/

/-- PACK's form of a class length and the value's distance from the class base is the value's canonical form (R40,
R42). -/
theorem packForm_payload {W : Width} {v L : Nat} (h : InClass W v L) :
    packForm W L (v - cbase W L) = .ok (canonicalForm W v) := by
  have hv := inRangeU_of_inClass h
  obtain ⟨h1, hL, hlo, hhi⟩ | ⟨rfl, hlo, _⟩ := h
  · have h8 := Nat.le_trans hL (nmark_le W)
    rw [cbase_of_le (by omega), canonicalForm_marker h1 hL hlo hhi, packForm_marker h1 hL (marker_payload_fits h1 hhi)]
  · have hfits := overflow_payload_fits hv
    rw [show 256 = 2 ^ 8 by rfl, ← Nat.pow_mul] at hfits
    rw [cbase_maxBytes, canonicalForm_overflow hlo, packForm_overflow hfits]

/-- Settles O24: in the class of the value, ENC and PACK both write the canonical form. -/
theorem encodeIsPackOfPayload : Obligations.EncodeIsPackOfPayload := by
  intro W s L h
  have hL : L ≤ 18 := by
    rw [inClass_length_eq h, ← length_canonicalForm_eq]
    exact Nat.le_trans (length_canonicalForm W _).2 (maxBytes_le W)
  have hlen : (BitVec.ofNat 5 L).toNat = L := toNat_ofNat_five hL
  have hpay : (BitVec.ofNat 128 (s.req.valIn.toNat - cbase W L)).toNat = s.req.valIn.toNat - cbase W L := by
    rw [BitVec.toNat_ofNat]
    exact Nat.mod_eq_of_lt (Nat.lt_of_le_of_lt (Nat.sub_le _ _) s.req.valIn.isLt)
  refine ⟨okForm (canonicalForm W s.req.valIn.toNat), answers_iff.2 ?_, answers_iff.2 ?_⟩
  · rw [responseTo_encU, Request.valUnsigned, encU_ok (inRangeU_of_inClass h), deliver_ok]
  · rw [responseTo_pack, Request.classLength, Request.valUnsigned, withClass, hlen, hpay, packForm_payload h, deliver_ok]

/-- One window starts with the canonical form of one value alone (R40). -/
theorem eq_of_startsWith_canonicalForm {W : Width} {w : Window} {v v' : Nat} (hv : inRangeU W v) (hv' : inRangeU W v')
    (h : StartsWith w (canonicalForm W v)) (h' : StartsWith w (canonicalForm W v')) : v = v' := by
  have hd := decU_canonicalForm hv h (length_canonicalForm W v).2
  have hd' := decU_canonicalForm hv' h' (length_canonicalForm W v').2
  rw [hd] at hd'
  exact congrArg Prod.fst (Except.ok.inj hd')

/-- Settles O25: the second window starts with both forms, and the decoder finds one value there. -/
theorem canonicalFormsArePrefixFree : Obligations.CanonicalFormsArePrefixFree := by
  intro W s t s' t' ht hok ht' hok' hpre
  obtain ⟨hv, hr⟩ := encU_next_ok ht hok
  obtain ⟨hv', hr'⟩ := encU_next_ok ht' hok'
  have hlen : ∀ v, (canonicalForm W v).length ≤ 18 := fun v =>
    Nat.le_trans (length_canonicalForm W v).2 (maxBytes_le W)
  rw [hr, hr', okForm_lenOut_toNat (hlen _)] at hpre
  have heq := eq_of_startsWith_canonicalForm hv hv'
    (startsWith_of_samePrefix (hlen _) rfl fun k hk => (hpre k hk).symm) (startsWith_memWrite (hlen _))
  exact ⟨BitVec.eq_of_toNat_eq heq, by rw [hr, hr', heq]⟩

/-! ## The unsigned decoder, form by form (R41, R42, R73) -/

/-- A length the analyzer finds is a marker class of the encoder or the greatest length of the width (R34, R36). -/
theorem le_nmark_or_eq_maxBytes {W : Width} {b : Byte} {L : Nat} {f : Form} (h : lpa W b = .ok (L, f)) :
    L ≤ nmark W ∨ L = maxBytes W := by
  obtain ⟨_, hM, h8 | h18⟩ := isLength_of_lpa h
  · unfold nmark
    omega
  · exact .inr h18

/-- In a marker class of the encoder, the class base plus a payload is a value of the class (R34, R41). -/
theorem inClass_marker {W : Width} {b : Byte} {L : Nat} {f : Form} (w : Window) (h : lpa W b = .ok (L, f))
    (hL : L ≤ nmark W) : InClass W (cbase W L + payloadOf f L w) L := by
  obtain ⟨h1, _, _, hovf⟩ := lpa_length h
  have h8 := Nat.le_trans hL (nmark_le W)
  cases f with
  | marker =>
    have hp := payloadOf_marker_lt w h1 h8
    rw [cbase_of_le (by omega)]
    exact .inl ⟨h1, hL, Nat.le_add_right _ _, by rw [base_succ h1]; omega⟩
  | overflow =>
    obtain ⟨hM, _⟩ := hovf rfl
    exact absurd hL (Nat.not_le.2 (hM ▸ nmark_lt_maxBytes W))

/-- What `dec_u` answers lies in the class its length names (R34, R41 c). -/
theorem inClass_decU {W : Width} {w : Window} {avail v L : Nat} (h : decU W w avail = .ok (v, L)) : InClass W v L := by
  obtain ⟨f, hl, _, rfl, hv⟩ := decU_eq_ok h
  obtain hL | rfl := le_nmark_or_eq_maxBytes hl
  · exact inClass_marker w hl hL
  · rw [cbase_maxBytes] at hv ⊢
    exact .inr ⟨rfl, Nat.le_add_right _ _, hv⟩

/-- Settles O27: the ports show the value and the length `dec_u` found. -/
theorem decodedValueLiesInItsClass : Obligations.DecodedValueLiesInItsClass := by
  intro W s t ht hok
  obtain ⟨v, L, hd, hr, hL, hv⟩ := decU_next_ok ht hok
  rw [hr, okValue_valOut, okValue_lenOut, ofUnsigned_toNat hv, toNat_ofNat_five hL]
  exact inClass_decU hd

/-- DEC.U of a whole form whose sum is in range (R73, R74). -/
theorem returns_decU {W : Width} {s : State} {L : Nat} {f : Form} (hl : lpa W (s.req.winIn.byte 0) = .ok (L, f))
    (ha : L ≤ s.req.avail) (hv : inRangeU W (cbase W L + payloadOf f L s.req.winIn)) :
    Returns (.decU W) s (BitVec.ofNat 128 (cbase W L + payloadOf f L s.req.winIn)) L := by
  rw [returns_iff, responseTo_decU, decU_form hl ha, if_pos hv, deliver_ok, ofUnsigned]

/-- DEC.U of a whole form whose sum is out of range (R73). -/
theorem raises_decU {W : Width} {s : State} {L : Nat} {f : Form} (hl : lpa W (s.req.winIn.byte 0) = .ok (L, f))
    (ha : L ≤ s.req.avail) (hv : 2 ^ W.bits - 1 < cbase W L + payloadOf f L s.req.winIn) :
    Raises (.decU W) s .outOfRange := by
  rw [raises_iff, responseTo_decU, decU_form hl ha, if_neg (Nat.not_le.2 hv), deliver_error]

/-- A marker form whose sum is out of range is width 32's form of length 5: every other one is in a class (R41 c). -/
theorem marker_outOfRange {W : Width} {b : Byte} {L : Nat} {w : Window} (hl : lpa W b = .ok (L, .marker))
    (hv : 2 ^ W.bits - 1 < cbase W L + payloadOf .marker L w) : W = .w32 ∧ L = 5 := by
  obtain ⟨_, _, hmark, _⟩ := lpa_length hl
  obtain ⟨h8, _⟩ := hmark rfl
  obtain hL | rfl := le_nmark_or_eq_maxBytes hl
  · exact absurd (inRangeU_of_inClass (inClass_marker w hl hL)) (Nat.not_le.2 hv)
  · cases W with
    | w32 => exact ⟨rfl, rfl⟩
    | w64 | w128 => exact absurd h8 (by decide)

/-- Settles O26: the analyzer finds the form, and the sum is in range or not. (The plain name is the model's own
`decodeUnsigned`.) -/
theorem Certificates.decodeUnsigned : Obligations.DecodeUnsigned := by
  refine fun W s => ⟨fun L hpre hM ha => ?_, fun hzero ha => ?_⟩
  · obtain ⟨h1, h8, hz⟩ := markerPrefix_iff_clz8.1 hpre
    have hl := lpa_marker hz h1 h8 hM
    rw [← payloadOf_marker]
    refine ⟨returns_decU hl ha, fun hv => ?_⟩
    obtain ⟨hW, hL⟩ := marker_outOfRange hl hv
    exact ⟨hW, hL, raises_decU hl ha hv⟩
  · have hl : lpa W (s.req.winIn.byte 0) = .ok (maxBytes W, .overflow) := by rw [hzero, lpa_zero]
    rw [← payloadOf_overflow, ← cbase_maxBytes]
    exact ⟨returns_decU hl ha, raises_decU hl ha⟩

/-- A window without width 32's marker form of length 5 does not announce it (R36, R41 c). -/
theorem clz8_ne_four {W : Width} {b : Byte} (h : ¬ (W = .w32 ∧ MarkerPrefix 5 b)) : ¬ (W = .w32 ∧ clz8 b = 4) :=
  fun ⟨hW, hz⟩ => h ⟨hW, markerPrefix_iff_clz8.2 ⟨by decide, by decide, hz⟩⟩

/-- Settles O30: both forms are the canonical form of the one value. -/
theorem decoderIsInjective : Obligations.DecoderIsInjective := by
  intro W u t u' t' ht hok ht' hok' hne hne' hval
  obtain ⟨v, L, hd, hr, hL, hv⟩ := decU_next_ok ht hok
  obtain ⟨v', L', hd', hr', _, hv'⟩ := decU_next_ok ht' hok'
  rw [hr, hr'] at hval
  have hvv : v = v' := by
    have hnat := congrArg BitVec.toNat hval
    rwa [okValue_valOut, okValue_valOut, ofUnsigned_toNat hv, ofUnsigned_toNat hv'] at hnat
  subst hvv
  have hform : u.req.winIn.memRead 0 L = u'.req.winIn.memRead 0 L' :=
    (canonicalForm_decU hd (clz8_ne_four hne)).symm.trans (canonicalForm_decU hd' (clz8_ne_four hne'))
  have hLL : L = L' := by simpa using congrArg List.length hform
  subst hLL
  rw [hr, hr', okValue_lenOut, toNat_ofNat_five hL]
  refine ⟨rfl, fun k hk => ?_⟩
  have hbyte := congrArg (fun bs => bs.getD k 0) hform
  simpa only [getD_memRead _ 0 hk, Nat.zero_add] using hbyte

/-- What `dec_u` answers is what UNPACK's computation answers plus the class base (R42, R62, R73). -/
theorem unpackPayload_of_decU {W : Width} {w : Window} {avail v L : Nat} (h : decU W w avail = .ok (v, L)) :
    ∃ pay, unpackPayload W w avail = .ok (pay, L) ∧ pay < 2 ^ 128 ∧ v = cbase W L + pay := by
  obtain ⟨f, hl, ha, rfl, hv⟩ := decU_eq_ok h
  have hfits : payloadOf f L w < 2 ^ 128 := by
    have hbits : 2 ^ W.bits ≤ 2 ^ 128 := Nat.pow_le_pow_right (by decide) (bits_le W)
    have hpos := Nat.two_pow_pos W.bits
    simp only [inRangeU] at hv
    omega
  exact ⟨_, by rw [unpackPayload_form hl ha, if_neg (Nat.not_le.2 hfits)], hfits, rfl⟩

/-- Settles O33: UNPACK reads the same form, and its payload fits the port. -/
theorem decodeIsUnpackPlusBase : Obligations.DecodeIsUnpackPlusBase := by
  intro W s t ht hok
  obtain ⟨v, L, hd, hr, hL, hv⟩ := decU_next_ok ht hok
  obtain ⟨pay, hu, hfits, rfl⟩ := unpackPayload_of_decU hd
  have hresp : responseTo (.unpack W) s.req = okValue (ofUnsigned pay) L := by rw [responseTo_unpack, hu, deliver_ok]
  refine ⟨_, exec_eq _ s, ?_⟩
  simp only [hresp, hr, okValue_status, okValue_lenOut, okValue_valOut, true_and]
  rw [toNat_ofNat_five hL, ofUnsigned_toNat hv, ofUnsigned_toNat (W := .w128) (Nat.le_pred_of_lt hfits)]

end Sys2Proof.Machine

/-! ## The length-prefix analyzer (R50, R52 to R54) -/

namespace Sys2Proof.Machine

open Sys2Proof.Safety

/-- R36's range of first bytes in the analyzer: a length the width has. -/
theorem lpa_of_markerPrefix {W : Width} {L : Nat} {b : Byte} (h : MarkerPrefix L b) (hM : L ≤ maxBytes W) :
    lpa W b = .ok (L, .marker) := by
  obtain ⟨h1, h8, hz⟩ := markerPrefix_iff_clz8.1 h
  exact lpa_marker hz h1 h8 hM

/-- R36's range of first bytes in the analyzer: a length the width does not have. -/
theorem lpa_invalid_of_markerPrefix {W : Width} {L : Nat} {b : Byte} (h : MarkerPrefix L b) (hM : maxBytes W < L) :
    lpa W b = .error .invalidPrefix := by
  obtain ⟨h1, h8, hz⟩ := markerPrefix_iff_clz8.1 h
  exact lpa_invalid hz h1 h8 hM

/-- A first byte with a bit set lies in one of R36's ranges. -/
theorem exists_markerPrefix {b : Byte} (h : b ≠ 0) : ∃ L, MarkerPrefix L b := by
  have hz : clz8 b ≠ 8 := fun e => h (clz8_eq_eight.1 e)
  have hle := clz8_le b
  exact ⟨clz8 b + 1, markerPrefix_iff_clz8.2 ⟨by omega, by omega, rfl⟩⟩

/-- Settles O8: the zero byte and R36's ranges are the cases of the algorithm, and there are no other bytes. -/
theorem analyzerReadsLengthFromFirstByte : Obligations.AnalyzerReadsLengthFromFirstByte := by
  refine fun W b0 => ⟨?_, fun _ => lpa_of_markerPrefix, fun _ => lpa_invalid_of_markerPrefix, ?_, fun L f h => ?_⟩
  · rintro rfl
    exact lpa_zero W
  · exact or_iff_not_imp_left.2 exists_markerPrefix
  · obtain ⟨h1, hM, _⟩ := lpa_length h
    exact ⟨h1, hM⟩

/-- PEEK of a first byte that announces a length (R51). -/
theorem returns_peek {W : Width} {s : State} {L : Nat} {f : Form} (h : lpa W (s.req.winIn.byte 0) = .ok (L, f)) :
    Returns (.peek W) s 0 L := by
  rw [returns_iff, responseTo_peek, Request.firstByte, h]
  rfl

/-- PEEK of a first byte that announces none (R51). -/
theorem raises_peek {W : Width} {s : State} {k : ErrorKind} (h : lpa W (s.req.winIn.byte 0) = .error k) :
    Raises (.peek W) s k := by
  rw [raises_iff, responseTo_peek, Request.firstByte, h, deliver_error]

/-- R36's range written with its last byte, as R52 to R54 write it. -/
theorem markerPrefix_of_range {b : Byte} {L : Nat} (h1 : 1 ≤ L) (h8 : L ≤ 8) (hlo : 2 ^ (8 - L) ≤ b.toNat)
    (hhi : b.toNat ≤ 2 ^ (9 - L) - 1) : MarkerPrefix L b :=
  ⟨h1, h8, hlo, (Nat.le_sub_one_iff_lt (Nat.two_pow_pos _)).1 hhi⟩

/-- The range of a marker length that every width has (R52 to R54). -/
theorem peek_range_le_five {s : State} (L : Nat) (h1 : 1 ≤ L) (h5 : L ≤ 5)
    (hlo : 2 ^ (8 - L) ≤ (s.req.winIn.byte 0).toNat) (hhi : (s.req.winIn.byte 0).toNat ≤ 2 ^ (9 - L) - 1) :
    Returns .peek32 s 0 L ∧ Returns .peek64 s 0 L ∧ Returns .peek128 s 0 L := by
  have hpre := markerPrefix_of_range h1 (by omega) hlo hhi
  have hret : ∀ W, Returns (.peek W) s 0 L := fun W =>
    returns_peek (lpa_of_markerPrefix hpre (Nat.le_trans h5 (by cases W <;> decide)))
  exact ⟨hret .w32, hret .w64, hret .w128⟩

/-- The range of a marker length beyond width 32, whose longest form is of 5 bytes (R52 to R54). -/
theorem peek_range_gt_five {s : State} (L : Nat) (h5 : 5 < L) (h8 : L ≤ 8)
    (hlo : 2 ^ (8 - L) ≤ (s.req.winIn.byte 0).toNat) (hhi : (s.req.winIn.byte 0).toNat ≤ 2 ^ (9 - L) - 1) :
    Raises .peek32 s .invalidPrefix ∧ Returns .peek64 s 0 L ∧ Returns .peek128 s 0 L := by
  have hpre := markerPrefix_of_range (by omega) h8 hlo hhi
  have hret : ∀ W, 8 ≤ maxBytes W → Returns (.peek W) s 0 L := fun W hW =>
    returns_peek (lpa_of_markerPrefix hpre (Nat.le_trans h8 hW))
  exact ⟨raises_peek (W := .w32) (lpa_invalid_of_markerPrefix hpre h5), hret .w64 (by decide), hret .w128 (by decide)⟩

/-- The first byte 0x00 announces the greatest length of each width (R52 to R54). -/
theorem peek_zero {s : State} (h : s.req.winIn.byte 0 = 0) (W : Width) : Returns (.peek W) s 0 (maxBytes W) :=
  returns_peek (h ▸ lpa_zero W)

/-- Settles O9: the ranges of R52 to R54 are R36's, length by length, and 0x00 is the overflow form. -/
theorem peekReportsLength : Obligations.PeekReportsLength := by
  refine ⟨rfl, rfl, rfl, ?_⟩
  rintro s _ rfl
  refine ⟨fun hlo => ?_, peek_range_le_five 2 (by decide) (by decide), peek_range_le_five 3 (by decide) (by decide),
    peek_range_le_five 4 (by decide) (by decide), peek_range_le_five 5 (by decide) (by decide),
    peek_range_gt_five 6 (by decide) (by decide), peek_range_gt_five 7 (by decide) (by decide), fun h1 => ?_,
    fun h0 => ?_⟩
  · exact peek_range_le_five 1 (by decide) (by decide) hlo (Nat.le_of_lt_succ (s.req.winIn.byte 0).isLt)
  · exact peek_range_gt_five 8 (by decide) (by decide) h1.ge h1.le
  · have hret := peek_zero (BitVec.eq_of_toNat_eq h0)
    exact ⟨hret .w32, hret .w64, hret .w128⟩

end Sys2Proof.Machine

/-! ## The packer and the unpacker as operations (41_payload_pack.md, R55 to R66) -/

namespace Sys2Proof.Machine

open Sys2Proof.Safety

/-! ### What PACK answers (R58) -/

/-- PACK succeeds exactly for a class length with a payload that fits the field of its class, and then its form is the
one of the class (R58). -/
theorem packForm_eq_ok_iff {W : Width} {L P : Nat} {out : List Byte} :
    packForm W L P = .ok out ↔
      (1 ≤ L ∧ L ≤ nmark W ∧ P < 2 ^ (7 * L) ∧ out = packMarker L P) ∨
        (L = maxBytes W ∧ P < 2 ^ (8 * (maxBytes W - 1)) ∧ out = packOvf W P) := by
  constructor
  · intro h
    rcases packForm_cases W L P with ⟨h1, hL, hP, e⟩ | ⟨hL, hP, e⟩ | ⟨e, _⟩ | ⟨e, _⟩ <;> rw [h] at e <;> cases e
    · exact .inl ⟨h1, hL, hP, rfl⟩
    · exact .inr ⟨hL, hP, rfl⟩
  · rintro (⟨h1, hL, hP, rfl⟩ | ⟨rfl, hP, rfl⟩)
    · exact packForm_marker h1 hL hP
    · exact packForm_overflow hP

/-- PACK rejects a length exactly when it is no class of the width, whatever the payload (R58, R104). -/
theorem packForm_eq_invalidPrefix_iff {W : Width} {L P : Nat} :
    packForm W L P = .error .invalidPrefix ↔ ¬ (1 ≤ L ∧ L ≤ nmark W) ∧ L ≠ maxBytes W := by
  constructor
  · intro h
    rcases packForm_cases W L P with ⟨_, _, _, e⟩ | ⟨_, _, e⟩ | ⟨e, _⟩ | ⟨e, hno⟩ <;> rw [h] at e <;> cases e
    exact hno
  · rintro ⟨hmark, hmax⟩
    rw [packForm, if_neg hmark, if_neg hmax]

theorem packForm_marker_outOfRange {W : Width} {L P : Nat} (h1 : 1 ≤ L) (hL : L ≤ nmark W) (hP : 2 ^ (7 * L) ≤ P) :
    packForm W L P = .error .outOfRange := by
  rw [packForm, if_pos ⟨h1, hL⟩, if_pos hP]

theorem packForm_overflow_outOfRange {W : Width} {P : Nat} (hP : 2 ^ (8 * (maxBytes W - 1)) ≤ P) :
    packForm W (maxBytes W) P = .error .outOfRange := by
  rw [packForm, if_neg fun h => Nat.not_le.2 (nmark_lt_maxBytes W) h.2, if_pos rfl, if_pos hP]

/-- A successful PACK in its ports (R58). -/
theorem responseTo_pack_ok {W : Width} {s : State} {out : List Byte}
    (h : packForm W s.req.lenIn.toNat s.req.valIn.toNat = .ok out) : responseTo (.pack W) s.req = okForm out := by
  rw [responseTo_pack, Request.classLength, Request.valUnsigned, h, deliver_ok]

/-- A failing PACK in its ports (R58, R106). -/
theorem raises_pack {W : Width} {s : State} {k : ErrorKind}
    (h : packForm W s.req.lenIn.toNat s.req.valIn.toNat = .error k) : Raises (.pack W) s k := by
  rw [raises_iff, responseTo_pack, Request.classLength, Request.valUnsigned, h, deliver_error]

/-- PACK of a payload that fits the overflow field (R56). -/
theorem writes_pack_overflow {W : Width} {s : State} (hL : s.req.lenIn.toNat = maxBytes W)
    (hP : s.req.valIn.toNat < 2 ^ (8 * (maxBytes W - 1))) :
    Writes (.pack W) s (maxBytes W) (overflowByte s.req.valIn.toNat) :=
  writes_of_okForm (responseTo_pack_ok (hL ▸ packForm_overflow hP)) (length_packOvf W _) (maxBytes_le W)
    fun _ => packOvf_getD _

/-- What stands on the ports after PACK is its computation delivered (R58). -/
theorem pack_next {W : Width} {s t : State} (ht : exec (.pack W) s = .next t) :
    t.resp = deliver okForm (packForm W s.req.lenIn.toNat s.req.valIn.toNat) := by
  rw [exec_eq_next.1 ht, responseTo_pack, Request.classLength, Request.valUnsigned]

/-- A successful PACK answered a form (R58). -/
theorem pack_next_ok {W : Width} {s t : State} (ht : exec (.pack W) s = .next t) (hok : t.resp.status = .ok) :
    ∃ out, packForm W s.req.lenIn.toNat s.req.valIn.toNat = .ok out ∧ t.resp = okForm out := by
  have hr := pack_next ht
  obtain ⟨out, e⟩ := exists_ok_of_deliver_ok (hr ▸ hok)
  exact ⟨out, e, by rw [hr, e, deliver_ok]⟩

/-- Settles O10: the form written is `packMarker`'s, whose bytes and leading zero count are known. -/
theorem packWritesMarkerForm : Obligations.PackWritesMarkerForm := by
  rintro W s _ _ rfl rfl h1 hL hP
  have h8 := Nat.le_trans hL (nmark_le W)
  have hresp := responseTo_pack_ok (packForm_marker h1 hL hP)
  refine ⟨writes_of_okForm hresp (length_packMarker _ h1) (by omega) fun _ => packMarker_getD _ h1 h8, fun t ht => ?_⟩
  rw [exec_eq_next.1 ht, hresp, okForm_winOut, byte_memWrite _ (by decide)]
  exact clz8_packMarker _ h1 h8

/-- Settles O11: the form written is `packOvf`'s. -/
theorem packWritesOverflowForm : Obligations.PackWritesOverflowForm := by
  rintro W s _ hL rfl hQ
  exact writes_pack_overflow hL hQ

/-- Settles O12: the length test comes first, then the payload test of the class. -/
theorem packRejects : Obligations.PackRejects := by
  rintro W s _ _ rfl rfl
  exact ⟨fun hmark hmax => raises_pack (packForm_eq_invalidPrefix_iff.2 ⟨hmark, hmax⟩),
    fun h1 hL hP => raises_pack (packForm_marker_outOfRange h1 hL hP),
    fun hL hP => raises_pack (hL ▸ packForm_overflow_outOfRange hP)⟩

/-! ### The class lengths of each width (R59 to R61) -/

theorem pack_status_ok_iff {W : Width} {s t : State} (ht : exec (.pack W) s = .next t) :
    t.resp.status = .ok ↔
      (1 ≤ s.req.lenIn.toNat ∧ s.req.lenIn.toNat ≤ nmark W ∧ s.req.valIn.toNat < 2 ^ (7 * s.req.lenIn.toNat)) ∨
        (s.req.lenIn.toNat = maxBytes W ∧ s.req.valIn.toNat < 2 ^ (8 * (maxBytes W - 1))) := by
  constructor
  · intro hok
    obtain ⟨out, e, _⟩ := pack_next_ok ht hok
    obtain ⟨h1, hL, hP, _⟩ | ⟨hL, hP, _⟩ := packForm_eq_ok_iff.1 e
    · exact .inl ⟨h1, hL, hP⟩
    · exact .inr ⟨hL, hP⟩
  · rintro (⟨h1, hL, hP⟩ | ⟨hL, hP⟩)
    · rw [pack_next ht, packForm_marker h1 hL hP, deliver_ok, okForm_status]
    · rw [pack_next ht, hL, packForm_overflow hP, deliver_ok, okForm_status]

theorem pack_status_invalidPrefix_iff {W : Width} {s t : State} (ht : exec (.pack W) s = .next t) :
    t.resp.status = .error .invalidPrefix ↔
      ¬ (1 ≤ s.req.lenIn.toNat ∧ s.req.lenIn.toNat ≤ nmark W) ∧ s.req.lenIn.toNat ≠ maxBytes W := by
  rw [← packForm_eq_invalidPrefix_iff (P := s.req.valIn.toNat), pack_next ht]
  cases packForm W s.req.lenIn.toNat s.req.valIn.toNat <;> simp

/-- The first byte of a form PACK builds is zero in the overflow form alone (R38, R39). -/
theorem packForm_byte0_eq_zero_iff {W : Width} {L P : Nat} {out : List Byte} (h : packForm W L P = .ok out) :
    out.getD 0 0 = 0 ↔ L = maxBytes W := by
  obtain ⟨h1, hL, _, rfl⟩ | ⟨hL, _, rfl⟩ := packForm_eq_ok_iff.1 h
  · have h8 := Nat.le_trans hL (nmark_le W)
    have hz := clz8_packMarker P h1 h8
    have hM := nmark_lt_maxBytes W
    rw [← clz8_eq_eight, hz]
    omega
  · exact iff_of_true rfl hL

/-- A successful PACK shows its class length, and a zero first byte in the overflow form alone (R59 to R61). -/
theorem pack_ok_ports {W : Width} {s t : State} (ht : exec (.pack W) s = .next t) (hok : t.resp.status = .ok) :
    t.resp.lenOut.toNat = s.req.lenIn.toNat ∧ (t.resp.winOut.byte 0 = 0 ↔ s.req.lenIn.toNat = maxBytes W) := by
  obtain ⟨out, e, hr⟩ := pack_next_ok ht hok
  obtain ⟨hlen, h18, _⟩ := packForm_length e
  rw [hr, okForm_lenOut_toNat (hlen ▸ h18), okForm_winOut, byte_memWrite _ (by decide)]
  exact ⟨hlen, packForm_byte0_eq_zero_iff e⟩

/-- A payload of the value port never reaches the last byte of the widest form (R61). -/
theorem packForm_byte17 {W : Width} {L P : Nat} {out : List Byte} (h : packForm W L P = .ok out) (hP : P < 2 ^ 128) :
    out.getD 17 0 = 0 := by
  obtain ⟨hlen, h18, _⟩ := packForm_length h
  by_cases hshort : L ≤ 17
  · exact List.getD_eq_default _ _ (by omega)
  · obtain ⟨_, hL, _⟩ | ⟨hL, _, rfl⟩ := packForm_eq_ok_iff.1 h
    · exact absurd (Nat.le_trans hL (nmark_le W)) (by omega)
    · apply BitVec.eq_of_toNat_eq
      rw [packOvf_getD P (by omega), overflowByte, if_neg (by decide), Nat.div_eq_of_lt hP]
      rfl

theorem pack_winOut_byte17 {W : Width} {s t : State} (ht : exec (.pack W) s = .next t) : t.resp.winOut.byte 17 = 0 := by
  rw [pack_next ht]
  cases e : packForm W s.req.lenIn.toNat s.req.valIn.toNat with
  | ok out =>
    rw [deliver_ok, okForm_winOut, byte_memWrite _ (by decide)]
    exact packForm_byte17 e s.req.valIn.isLt
  | error k => rw [deliver_error, raise_winOut, byte_zero]

/-- Settles O13: PACK's conditions in the numbers of each width; at width 128 every operand fits the overflow field. -/
theorem packAcceptsClassLengths : Obligations.PackAcceptsClassLengths := by
  refine ⟨rfl, rfl, rfl, ?_⟩
  rintro s t32 t64 t128 _ _ rfl rfl h32 h64 h128
  have hfits : s.req.valIn.toNat < 2 ^ (8 * (maxBytes .w128 - 1)) := Nat.lt_trans s.req.valIn.isLt (by decide)
  refine ⟨pack_status_ok_iff (W := .w32) h32, ?_, pack_status_ok_iff (W := .w64) h64, ?_,
    (pack_status_ok_iff (W := .w128) h128).trans (or_congr_right (and_iff_left hfits)), ?_,
    pack_ok_ports (W := .w32) h32, pack_ok_ports (W := .w64) h64, pack_ok_ports (W := .w128) h128,
    pack_winOut_byte17 (W := .w128) h128⟩
  · rw [pack_status_invalidPrefix_iff (W := .w32) h32, nmark_w32, maxBytes]
    omega
  · rw [pack_status_invalidPrefix_iff (W := .w64) h64, nmark_w64, maxBytes]
    omega
  · rw [pack_status_invalidPrefix_iff (W := .w128) h128, nmark_w128, maxBytes]
    omega

/-! ### What UNPACK answers (R57, R62) -/

/-- UNPACK of a whole form whose payload fits the value port (R62). -/
theorem returns_unpack {W : Width} {s : State} {L : Nat} {f : Form} (hl : lpa W (s.req.winIn.byte 0) = .ok (L, f))
    (ha : L ≤ s.req.avail) (hp : payloadOf f L s.req.winIn < 2 ^ 128) :
    Returns (.unpack W) s (BitVec.ofNat 128 (payloadOf f L s.req.winIn)) L := by
  rw [returns_iff, responseTo_unpack, unpackPayload_form hl ha, if_neg (Nat.not_le.2 hp), deliver_ok, ofUnsigned]

/-- UNPACK of a whole form whose payload does not fit the value port (R62). -/
theorem raises_unpack {W : Width} {s : State} {L : Nat} {f : Form} (hl : lpa W (s.req.winIn.byte 0) = .ok (L, f))
    (ha : L ≤ s.req.avail) (hp : 2 ^ 128 ≤ payloadOf f L s.req.winIn) : Raises (.unpack W) s .outOfRange := by
  rw [raises_iff, responseTo_unpack, unpackPayload_form hl ha, if_pos hp, deliver_error]

/-- A successful UNPACK answered the payload and length of a whole form (R62). -/
theorem unpack_next_ok {W : Width} {s t : State} (ht : exec (.unpack W) s = .next t) (hok : t.resp.status = .ok) :
    ∃ L f, lpa W (s.req.winIn.byte 0) = .ok (L, f) ∧ t.resp.lenOut.toNat = L ∧
      t.resp.valOut.toNat = payloadOf f L s.req.winIn := by
  rw [exec_eq_next.1 ht] at hok ⊢
  rw [responseTo_unpack] at hok ⊢
  obtain ⟨⟨pay, L⟩, e⟩ := exists_ok_of_deliver_ok hok
  obtain ⟨f, hl, _, rfl, hp⟩ := unpackPayload_eq_ok e
  refine ⟨L, f, hl, ?_⟩
  rw [e, deliver_ok, okValue_lenOut, okValue_valOut]
  exact ⟨toNat_ofNat_five_of_isLength (isLength_of_lpa hl), ofUnsigned_toNat (W := .w128) (Nat.le_pred_of_lt hp)⟩

/-- Settles O14: the analyzer finds the form, and a marker payload, or an overflow payload below width 128, always fits
the value port. -/
theorem unpackReadsForm : Obligations.UnpackReadsForm := by
  refine fun W s => ⟨fun L hpre hM ha => ?_, fun hzero ha => ?_⟩
  · have hl := lpa_of_markerPrefix hpre hM
    obtain ⟨h1, h8, _⟩ := hpre
    have hp := payloadOf_marker_lt s.req.winIn h1 h8
    have hfits := Nat.lt_of_lt_of_le hp (Nat.pow_le_pow_right (by decide) (show 7 * L ≤ 128 by omega))
    rw [← payloadOf_marker]
    exact ⟨hp, returns_unpack hl ha hfits⟩
  · have hl : lpa W (s.req.winIn.byte 0) = .ok (maxBytes W, .overflow) := by rw [hzero, lpa_zero]
    rw [← payloadOf_overflow]
    refine ⟨returns_unpack hl ha, fun hp => ⟨?_, raises_unpack hl ha hp⟩⟩
    by_contra hW
    exact Nat.not_lt.2 hp (payloadOf_lt_two_pow_128 hW hl)

/-- Settles O15: `unpack` makes the tests in their order, and the three operations hand on its error. -/
theorem windowTestsInOrder : Obligations.WindowTestsInOrder := by
  refine fun W s i hi => ⟨fun hempty => ?_, fun hsome L hpre hM => ?_, fun _ L hpre hM hshort => ?_,
    fun _ hzero hshort => ?_⟩ <;> apply raises_of_unpack_error hi
  · rw [Request.avail, hempty]
    exact unpack_empty W _
  · exact unpack_prefix (avail_ne_zero hsome) (lpa_invalid_of_markerPrefix hpre hM)
  · exact unpack_short (lpa_of_markerPrefix hpre hM) hshort
  · exact unpack_short (hzero ▸ lpa_zero W) hshort

/-! ### PACK and UNPACK undo each other (R66) -/

/-- A form PACK builds unpacks to its payload and class length, whatever follows it (R66). -/
theorem unpackPayload_packForm {W : Width} {w : Window} {avail L P : Nat} {out : List Byte}
    (h : packForm W L P = .ok out) (hP : P < 2 ^ 128) (hw : StartsWith w out) (ha : L ≤ avail) :
    unpackPayload W w avail = .ok (P, L) := by
  have hu : ∃ f, unpack W w avail = .ok (L, f, P) := by
    obtain ⟨h1, hL, hfits, rfl⟩ | ⟨rfl, hfits, rfl⟩ := packForm_eq_ok_iff.1 h
    · have hM := nmark_lt_maxBytes W
      exact ⟨_, unpack_packMarker h1 (Nat.le_trans hL (nmark_le W)) (by omega) hfits hw ha⟩
    · rw [Nat.pow_mul] at hfits
      exact ⟨_, unpack_packOvf hfits hw ha⟩
  obtain ⟨f, hu⟩ := hu
  obtain ⟨hl, _, rfl⟩ := unpack_eq_ok.1 hu
  rw [unpackPayload_form hl ha, if_neg (Nat.not_le.2 hP)]

/-- Settles O16: the window starts with the form PACK built. -/
theorem unpackInvertsPack : Obligations.UnpackInvertsPack := by
  intro W s t u ht hok hpre ha
  obtain ⟨out, e, hr⟩ := pack_next_ok ht hok
  obtain ⟨hlen, h18, _⟩ := packForm_length e
  rw [← hlen] at h18
  rw [hr, okForm_lenOut_toNat h18] at hpre ha
  have hw := startsWith_of_samePrefix h18 rfl hpre
  rw [hlen, ← avail_eq] at ha
  rw [returns_iff, responseTo_unpack, unpackPayload_packForm e s.req.valIn.isLt hw ha, deliver_ok,
    ofUnsigned_toNat_self]

/-- A marker form of the greatest length of its width is width 32's form of length 5 (R41 c, R63). -/
theorem eq_w32_of_lpa_marker_maxBytes {W : Width} {b : Byte} (h : lpa W b = .ok (maxBytes W, .marker)) : W = .w32 := by
  obtain ⟨_, _, hmark, _⟩ := lpa_length h
  obtain ⟨h8, _⟩ := hmark rfl
  cases W with
  | w32 => rfl
  | w64 | w128 => exact absurd h8 (by decide)

/-- The payload of a form packs to the bytes it was read from, but for width 32's marker form of length 5 (R66). -/
theorem packForm_payloadOf {W : Width} {w : Window} {L : Nat} {f : Form} (hl : lpa W (w.byte 0) = .ok (L, f))
    (hne : ¬ (W = .w32 ∧ MarkerPrefix 5 (w.byte 0))) : packForm W L (payloadOf f L w) = .ok (w.memRead 0 L) := by
  obtain ⟨h1, _, hmark, hovf⟩ := lpa_length hl
  cases f with
  | marker =>
    obtain ⟨h8, hz⟩ := hmark rfl
    obtain hL | rfl := le_nmark_or_eq_maxBytes hl
    · rw [packForm_marker h1 hL (payloadOf_marker_lt w h1 h8), packMarker_payloadOf h1 h8 hz]
    · obtain rfl := eq_w32_of_lpa_marker_maxBytes hl
      exact absurd ⟨rfl, markerPrefix_iff_clz8.2 ⟨h1, h8, hz⟩⟩ hne
  | overflow =>
    obtain ⟨rfl, h0⟩ := hovf rfl
    have hfits := payloadOf_overflow_lt (maxBytes W) w
    rw [show 256 = 2 ^ 8 by rfl, ← Nat.pow_mul] at hfits
    rw [packForm_overflow hfits, packOvf_payloadOf h0]

/-- Settles O17: PACK is asked for the payload and length of the form UNPACK read; a marker form of length 5 asks at
width 32 for the overflow class. -/
theorem packInvertsUnpackButForOneForm : Obligations.PackInvertsUnpackButForOneForm := by
  intro W u t s ht hok hval hlen
  obtain ⟨L, f, hl, hL, hpay⟩ := unpack_next_ok ht hok
  rw [← hlen] at hL ⊢
  rw [← hval] at hpay ⊢
  refine ⟨fun hne => ?_, fun hW hpre => ?_⟩
  · have h18 := Nat.le_trans (lpa_length hl).2.1 (maxBytes_le W)
    have hform := packForm_payloadOf hl hne
    rw [← hpay, ← hL] at hform
    exact writes_memRead (hL ▸ h18) (responseTo_pack_ok hform)
  · subst hW
    obtain ⟨rfl, rfl⟩ : 5 = L ∧ Form.marker = f := by
      simpa [hl] using (lpa_of_markerPrefix (W := .w32) hpre (by decide)).symm
    refine ⟨hL, hpay ▸ payloadOf_marker_lt _ (by decide) (by decide), writes_pack_overflow (W := .w32) hL,
      fun hP => raises_pack ?_⟩
    rw [hL]
    exact packForm_overflow_outOfRange (W := .w32) hP

end Sys2Proof.Machine

/-! ## The unsigned encoder (42_encoder.md, R67 to R72) -/

namespace Sys2Proof.Machine

open Sys2Proof.Safety

/-! ### What ENC.U answers (R68) -/

/-- In range, ENC.U answers the canonical form (R68). -/
theorem responseTo_encU_ok {W : Width} {q : Request} (hv : inRangeU W q.valIn.toNat) :
    responseTo (.encU W) q = okForm (canonicalForm W q.valIn.toNat) := by
  rw [responseTo_encU, Request.valUnsigned, encU_ok hv, deliver_ok]

/-- Out of range, ENC.U raises `OutOfRange` (R68). -/
theorem responseTo_encU_error {W : Width} {q : Request} (hv : ¬ inRangeU W q.valIn.toNat) :
    responseTo (.encU W) q = raise .outOfRange := by
  rw [responseTo_encU, Request.valUnsigned, encU_error hv, deliver_error]

/-- ENC.U reports no status but these two (R68, R109). -/
theorem status_encU (W : Width) (q : Request) :
    (responseTo (.encU W) q).status = .ok ∨ (responseTo (.encU W) q).status = .error .outOfRange := by
  by_cases hv : inRangeU W q.valIn.toNat
  · exact .inl (by rw [responseTo_encU_ok hv, okForm_status])
  · exact .inr (by rw [responseTo_encU_error hv, raise_status])

/-- The canonical form of a value in a marker class is written as R38 lays it out. -/
theorem writes_canonicalForm_marker {i : Instr} {s : State} {W : Width} {v L : Nat}
    (h : responseTo i s.req = okForm (canonicalForm W v)) (h1 : 1 ≤ L) (hL : L ≤ nmark W) (hlo : base L ≤ v)
    (hhi : v < base (L + 1)) : Writes i s L (markerByte L (v - base L)) := by
  have h8 := Nat.le_trans hL (nmark_le W)
  rw [canonicalForm_marker h1 hL hlo hhi] at h
  exact writes_of_okForm h (length_packMarker _ h1) (by omega) fun _ => packMarker_getD _ h1 h8

/-- The canonical form of a value in the overflow class is written as R39 lays it out. -/
theorem writes_canonicalForm_overflow {i : Instr} {s : State} {W : Width} {v : Nat}
    (h : responseTo i s.req = okForm (canonicalForm W v)) (hlo : ovfBase W ≤ v) :
    Writes i s (maxBytes W) (overflowByte (v - ovfBase W)) := by
  rw [canonicalForm_overflow hlo] at h
  exact writes_of_okForm h (length_packOvf W _) (maxBytes_le W) fun _ => packOvf_getD _

/-! ### Its ports, for a value in range -/

theorem lenOut_encU {W : Width} {q : Request} (hv : inRangeU W q.valIn.toNat) :
    (responseTo (.encU W) q).lenOut.toNat = (classOf W q.valIn.toNat).1 := by
  rw [responseTo_encU_ok hv, okForm_lenOut_toNat (Nat.le_trans (length_canonicalForm W _).2 (maxBytes_le W)),
    length_canonicalForm_eq]

theorem winOut_encU {W : Width} {q : Request} (hv : inRangeU W q.valIn.toNat) {k : Nat} (hk : k < 18) :
    (responseTo (.encU W) q).winOut.byte k = (canonicalForm W q.valIn.toNat).getD k 0 := by
  rw [responseTo_encU_ok hv, okForm_winOut, byte_memWrite _ hk]

/-- The length on the port is that of the class of the value (R68). -/
theorem inClass_encU {W : Width} {q : Request} (hv : inRangeU W q.valIn.toNat) :
    InClass W q.valIn.toNat (responseTo (.encU W) q).lenOut.toNat := by
  rw [lenOut_encU hv]
  exact inClass_classOf hv

/-- No other length has a class with the value in it (R34, R68). -/
theorem lenOut_encU_of_inClass {W : Width} {q : Request} {L : Nat} (h : InClass W q.valIn.toNat L) :
    (responseTo (.encU W) q).lenOut.toNat = L := by
  rw [lenOut_encU (inRangeU_of_inClass h), inClass_length_eq h]

/-- The first byte written announces the length on the port (R72 b). -/
theorem lpa_encU {W : Width} {q : Request} (hv : inRangeU W q.valIn.toNat) :
    ∃ f, lpa W ((responseTo (.encU W) q).winOut.byte 0) = .ok ((responseTo (.encU W) q).lenOut.toNat, f) := by
  rw [winOut_encU hv (by decide), lenOut_encU hv, ← length_canonicalForm_eq]
  exact lpa_canonicalForm W _

/-- At and above `OB(W)` the first byte written is the zero byte of the overflow form (R39). -/
theorem byte0_encU_overflow {W : Width} {q : Request} (hlo : ovfBase W ≤ q.valIn.toNat)
    (hv : inRangeU W q.valIn.toNat) : (responseTo (.encU W) q).winOut.byte 0 = 0 := by
  rw [winOut_encU hv (by decide), canonicalForm_overflow hlo]
  rfl

/-- Settles O21: in range the canonical form, marker or overflow by the class of the value, and out of range the error.
(The plain name is the model's own `encodeUnsigned`.) -/
theorem Certificates.encodeUnsigned : Obligations.EncodeUnsigned := by
  rintro W s _ rfl
  refine ⟨decode_commandWord W 0 0, fun hout => ?_, fun L h1 hL hlo hhi => ?_, fun hlo hv => ?_, fun hv => ?_,
    fun t ht => ?_⟩
  · have hv := Nat.not_le.2 hout
    exact ⟨ne_w128_of_not_inRangeU hv, raises_iff.2 (responseTo_encU_error hv)⟩
  · have hv : inRangeU W s.req.valIn.toNat := inRangeU_of_inClass (.inl ⟨h1, hL, hlo, hhi⟩)
    exact writes_canonicalForm_marker (responseTo_encU_ok hv) h1 hL hlo hhi
  · exact writes_canonicalForm_overflow (responseTo_encU_ok hv) hlo
  · exact ⟨_, exec_eq _ s, by rw [responseTo_encU_ok hv, okForm_status], inClass_encU hv⟩
  · rw [exec_eq_next.1 ht]
    obtain e | e := status_encU W s.req <;> rw [e] <;> decide

/-! ### ENC.U32 in numbers (R69) -/

/-- At width 32 a marker form has its marker in the upper half of the first byte, and the overflow form's first byte is
zero (R36, R69). -/
theorem byte0_canonicalForm_w32 (v : Nat) :
    ((canonicalForm .w32 v).getD 0 0).toNat = 0 ∨ 0x10 ≤ ((canonicalForm .w32 v).getD 0 0).toNat := by
  obtain ⟨L, h1, hL, hlo, hhi, _⟩ | ⟨hlo, _⟩ := class_cases .w32 v
  · have h4 : L ≤ 4 := hL
    have hmark : 2 ^ 4 ≤ 2 ^ (8 - L) := Nat.pow_le_pow_right (by decide) (by omega)
    rw [canonicalForm_marker h1 hL hlo hhi, packMarker_byte0 _ h1 (by omega)]
    exact .inr (Nat.le_add_right_of_le hmark)
  · rw [canonicalForm_overflow hlo]
    exact .inl rfl

/-- The length of the values between two numbers of one marker class (R69). -/
theorem lenOut_encU_of_le {W : Width} {q : Request} (L lo hi : Nat)
    (h : 1 ≤ L ∧ L ≤ nmark W ∧ base L ≤ lo ∧ hi < base (L + 1)) (hlo : lo ≤ q.valIn.toNat) (hhi : q.valIn.toNat ≤ hi) :
    (responseTo (.encU W) q).lenOut.toNat = L := by
  obtain ⟨h1, hL, hbase, hnext⟩ := h
  exact lenOut_encU_of_inClass (.inl ⟨h1, hL, Nat.le_trans hbase hlo, Nat.lt_of_le_of_lt hhi hnext⟩)

/-- The payload bytes of the overflow form, least significant first (R39). -/
theorem winOut_encU_overflow {W : Width} {q : Request} (hlo : ovfBase W ≤ q.valIn.toNat)
    (hv : inRangeU W q.valIn.toNat) {k : Nat} (hk : k + 1 < maxBytes W) :
    ((responseTo (.encU W) q).winOut.byte (k + 1)).toNat = (q.valIn.toNat - ovfBase W) / 256 ^ k % 256 := by
  rw [winOut_encU hv (Nat.lt_of_lt_of_le hk (maxBytes_le W)), canonicalForm_overflow hlo, packOvf_getD _ hk,
    overflowByte, if_neg (Nat.succ_ne_zero k), Nat.add_sub_cancel, Nat.pow_mul]

/-- Settles O22: the ranges of R69 are the classes of width 32, by the printed thresholds. -/
theorem encodeU32InNumbers : Obligations.EncodeU32InNumbers := by
  refine ⟨rfl, ?_⟩
  rintro s _ rfl
  refine ⟨fun hout => raises_iff.2 (responseTo_encU_error (W := .w32) (Nat.not_le.2 hout)), fun hmax => ?_⟩
  have hv : inRangeU .w32 s.req.valIn.toNat := hmax
  refine ⟨_, exec_eq (.encU .w32) s, by rw [responseTo_encU_ok hv, okForm_status],
    lenOut_encU_of_le (W := .w32) 1 0 127 (by decide) (Nat.zero_le _),
    lenOut_encU_of_le (W := .w32) 2 128 16511 (by decide),
    lenOut_encU_of_le (W := .w32) 3 16512 2113663 (by decide),
    lenOut_encU_of_le (W := .w32) 4 2113664 270549119 (by decide), fun hlo => ?_, ?_⟩
  · rw [← ovfBase_w32] at hlo ⊢
    exact ⟨lenOut_encU_of_inClass (.inr ⟨rfl, hlo, hv⟩), byte0_encU_overflow hlo hv,
      fun k hk => winOut_encU_overflow hlo hv (Nat.succ_lt_succ hk)⟩
  · rw [winOut_encU hv (by decide)]
    exact byte0_canonicalForm_w32 _

/-! ### Where the encoders of two widths agree (R72 d) -/

/-- A marker class is packed alike at every width that has it (R38, R68). -/
theorem canonicalForm_eq_of_lt_ovfBase {W W' : Width} {v : Nat} (hn : nmark W ≤ nmark W') (hv : v < ovfBase W) :
    canonicalForm W v = canonicalForm W' v := by
  obtain ⟨L, h1, hL, hlo, hhi⟩ := exists_class hv
  rw [canonicalForm_marker h1 hL hlo hhi, canonicalForm_marker h1 (Nat.le_trans hL hn) hlo hhi]

/-- Below the overflow class of the width with the fewer marker classes, two widths answer alike (R72 d). -/
theorem responseTo_encU_eq {W W' : Width} {q : Request} (hn : nmark W ≤ nmark W')
    (hv : q.valIn.toNat < ovfBase W) : responseTo (.encU W) q = responseTo (.encU W') q := by
  have hle : ovfBase W ≤ ovfBase W' := base_mono (Nat.succ_le_succ hn)
  rw [responseTo_encU_ok (Nat.le_trans hv.le (ovfBase_le W)),
    responseTo_encU_ok (Nat.le_trans (Nat.le_trans hv.le hle) (ovfBase_le W')), canonicalForm_eq_of_lt_ovfBase hn hv]

/-- In the overflow class of one width, another width answers otherwise: the first byte 0x00 announces the greatest
length of the width, and the two widths have different ones (R50, R72 d). -/
theorem responseTo_encU_ne {W W' : Width} {q : Request} (hM : maxBytes W ≠ maxBytes W')
    (hlo : ovfBase W ≤ q.valIn.toNat) (hv : inRangeU W q.valIn.toNat) (hv' : inRangeU W' q.valIn.toNat) :
    responseTo (.encU W) q ≠ responseTo (.encU W') q := by
  intro heq
  obtain ⟨f, hl⟩ := lpa_encU hv'
  rw [← heq, byte0_encU_overflow hlo hv, lpa_zero, lenOut_encU_of_inClass (.inr ⟨rfl, hlo, hv⟩)] at hl
  exact hM (congrArg Prod.fst (Except.ok.inj hl)).symm

/-- Settles O23: the length is that of the one class of the value, the class search is monotone, and two widths differ
from the overflow class of the narrower one on. -/
theorem encoderLengthIsMinimalAndMonotone : Obligations.EncoderLengthIsMinimalAndMonotone := by
  refine ⟨fun W s hv => ?_, fun s t32 t64 t128 h32 h64 h128 => ?_⟩
  · obtain ⟨f, hl⟩ := lpa_encU hv
    obtain ⟨h1, hM, _⟩ := lpa_length hl
    refine ⟨_, exec_eq _ s, by rw [responseTo_encU_ok hv, okForm_status], inClass_encU hv,
      fun L h => (lenOut_encU_of_inClass h).le, h1, hM, ⟨f, hl⟩, fun s' t' hle hv' ht' => ?_⟩
    rw [exec_eq_next.1 ht', lenOut_encU hv, lenOut_encU hv']
    exact classOf_mono hle
  · obtain rfl := exec_eq_next.1 h32
    obtain rfl := exec_eq_next.1 h64
    obtain rfl := exec_eq_next.1 h128
    rw [← ovfBase_w32, ← ovfBase_w64]
    refine ⟨responseTo_encU_eq (W := .w32) (W' := .w64) (by decide), fun hlo hv => ?_,
      responseTo_encU_eq (W := .w64) (W' := .w128) (by decide), fun hlo hv => ?_⟩
    · exact responseTo_encU_ne (W := .w32) (W' := .w64) (by decide) hlo hv (Nat.le_trans hv (by decide))
    · exact responseTo_encU_ne (W := .w64) (W' := .w128) (by decide) hlo hv (Nat.le_trans hv (by decide))

end Sys2Proof.Machine

/-! ## The unsigned decoder against the encoder and PEEK (43_decoder.md, R78 to R80) -/

namespace Sys2Proof.Machine

open Sys2Proof.Safety

/-! ### Reading back a written form (R78) -/

/-- A window that agrees with the ports of ENC.U on the bytes written, with at least those bytes present, starts with a
whole canonical form (R24, R68). -/
theorem startsWith_of_encU_next {W : Width} {s t u : State} (ht : exec (.encU W) s = .next t)
    (hok : t.resp.status = .ok) (hpre : SamePrefix t.resp.lenOut.toNat u.req.winIn t.resp.winOut)
    (ha : t.resp.lenOut.toNat ≤ min u.req.availIn.toNat 18) :
    t.resp.lenOut.toNat = (canonicalForm W s.req.valIn.toNat).length ∧
      StartsWith u.req.winIn (canonicalForm W s.req.valIn.toNat) ∧
      (canonicalForm W s.req.valIn.toNat).length ≤ u.req.avail := by
  obtain ⟨_, hr⟩ := encU_next_ok ht hok
  have h18 := Nat.le_trans (length_canonicalForm W s.req.valIn.toNat).2 (maxBytes_le W)
  rw [hr, okForm_lenOut_toNat h18] at hpre ha ⊢
  exact ⟨rfl, startsWith_of_samePrefix h18 rfl hpre, ha⟩

/-- Settles O28: the window starts with the canonical form of the value, which `dec_u` reads back. -/
theorem decodeInvertsEncodeUnsigned : Obligations.DecodeInvertsEncodeUnsigned := by
  intro W s t u ht hok hpre ha
  obtain ⟨hv, _⟩ := encU_next_ok ht hok
  obtain ⟨hlen, hw, hall⟩ := startsWith_of_encU_next ht hok hpre ha
  rw [hlen, returns_iff, responseTo_decU, decU_canonicalForm hv hw hall, deliver_ok, ofUnsigned_toNat_self]

/-- Settles O29: the bytes `dec_u` read are the canonical form of the value it answered. -/
theorem encodeInvertsDecodeUnsigned : Obligations.EncodeInvertsDecodeUnsigned := by
  intro W u t s ht hok hne hval
  obtain ⟨v, L, hd, hr, hL, hv⟩ := decU_next_ok ht hok
  have hnat : s.req.valIn.toNat = v := by rw [hval, hr, okValue_valOut, ofUnsigned_toNat hv]
  rw [hr, okValue_lenOut, toNat_ofNat_five hL]
  apply writes_memRead hL
  rw [responseTo_encU_ok (hnat ▸ hv), hnat, canonicalForm_decU hd (clz8_ne_four hne)]

/-! ### The length of a decoded form is the one PEEK reports (R79) -/

/-- DEC.S succeeds with a length that `dec_u` found (R96). -/
theorem decS_eq_ok {W : Width} {w : Window} {avail L : Nat} {n : Int} (h : decS W w avail = .ok (n, L)) :
    ∃ v, decU W w avail = .ok (v, L) ∧ n = unzigzag W v := by
  cases e : decU W w avail with
  | error k =>
    rw [decS_error e] at h
    cases h
  | ok a =>
    rw [decS_ok e] at h
    cases h
    exact ⟨a.1, rfl, rfl⟩

/-- A successful DEC.S answered a length that `dec_u` found (R96). -/
theorem decS_next_ok {W : Width} {s t : State} (ht : exec (.decS W) s = .next t) (hok : t.resp.status = .ok) :
    ∃ v L, decU W s.req.winIn s.req.avail = .ok (v, L) ∧ t.resp = okValue (ofSigned (unzigzag W v)) L := by
  rw [exec_eq_next.1 ht] at hok ⊢
  rw [responseTo_decS] at hok ⊢
  obtain ⟨⟨n, L⟩, e⟩ := exists_ok_of_deliver_ok hok
  obtain ⟨v, hd, rfl⟩ := decS_eq_ok e
  exact ⟨v, L, hd, by rw [e, deliver_ok]⟩

/-- The length on the port of a successful decoder is the one the first byte announces (R50, R74, R96). -/
theorem lpa_of_decoder_next_ok {W : Width} {i : Instr} {s t : State} (hi : i = .decU W ∨ i = .decS W)
    (ht : exec i s = .next t) (hok : t.resp.status = .ok) :
    ∃ f, lpa W (s.req.winIn.byte 0) = .ok (t.resp.lenOut.toNat, f) := by
  obtain ⟨v, x, L, hd, hr⟩ : ∃ v x L, decU W s.req.winIn s.req.avail = .ok (v, L) ∧ t.resp = okValue x L := by
    obtain rfl | rfl := hi
    · obtain ⟨v, L, hd, hr, _⟩ := decU_next_ok ht hok
      exact ⟨v, _, L, hd, hr⟩
    · obtain ⟨v, L, hd, hr⟩ := decS_next_ok ht hok
      exact ⟨v, _, L, hd, hr⟩
  obtain ⟨f, hl, _⟩ := decU_eq_ok hd
  rw [hr, okValue_lenOut, toNat_ofNat_five_of_isLength (isLength_of_lpa hl)]
  exact ⟨f, hl⟩

/-- Settles O31: both PEEK and the decoder report the length the first byte announces. -/
theorem peekAgreesWithDecode : Obligations.PeekAgreesWithDecode := by
  intro W i s t u hi ht hok hbyte
  obtain ⟨f, hl⟩ := lpa_of_decoder_next_ok hi ht hok
  exact returns_peek (hbyte ▸ hl)

/-! ### What DEC.U32 makes of a form of width 64 (R80) -/

theorem base_six : base 6 = 34630287488 := by decide

/-- A class whose end lies above a value at or above `base(n)` has a length of at least `n` (R34). -/
theorem le_of_base_le {v n L : Nat} (hlo : base n ≤ v) (hhi : v < base (L + 1)) : n ≤ L := by
  by_contra hlt
  exact absurd (Nat.le_trans (base_mono (Nat.not_le.1 hlt)) hlo) (Nat.not_le.2 hhi)

/-- A form of width 64 in class 5 is width 32's marker form of length 5 too, with the value as its sum (R41 c, R80). -/
theorem raises_decU32_of_class_five {u : State} {v : Nat} (hlo : 2 ^ 32 ≤ v) (hhi : v < base 6)
    (hw : StartsWith u.req.winIn (canonicalForm .w64 v)) (ha : (canonicalForm .w64 v).length ≤ u.req.avail) :
    Raises .decU32 u .outOfRange := by
  have hbase : base 5 ≤ v := Nat.le_trans (by decide) hlo
  rw [canonicalForm_marker (L := 5) (by decide) (by decide) hbase hhi] at hw ha
  rw [length_packMarker _ (by decide)] at ha
  obtain ⟨hl, _, hp⟩ := unpack_eq_ok.1
    (unpack_packMarker (W := .w32) (by decide) (by decide) (by decide) (marker_payload_fits (by decide) hhi) hw ha)
  have hsum : cbase .w32 5 + payloadOf .marker 5 u.req.winIn = v := by
    rw [← hp, cbase_of_le (by decide), Nat.add_sub_cancel' hbase]
  refine raises_decU (W := .w32) hl ha ?_
  rw [hsum]
  exact hlo

/-- The first byte of a marker form of width 64 longer than 5 bytes announces no length of width 32 (R50, R80). -/
theorem raises_decU32_of_class_gt_five {u : State} {v : Nat} (hlo : base 6 ≤ v) (hhi : v < base 9)
    (hw : StartsWith u.req.winIn (canonicalForm .w64 v)) (ha : (canonicalForm .w64 v).length ≤ u.req.avail) :
    Raises .decU32 u .invalidPrefix := by
  obtain ⟨L, h1, h8, hbase, hnext⟩ := exists_class (W := .w64) hhi
  have h6 := le_of_base_le hlo hnext
  rw [canonicalForm_marker h1 h8 hbase hnext] at hw ha
  rw [length_packMarker _ h1] at ha
  have hz : clz8 (u.req.winIn.byte 0) = L - 1 := by
    rw [hw 0 (by rw [length_packMarker _ h1]; exact h1), clz8_packMarker _ h1 h8]
  exact raises_of_unpack_error (W := .w32) (.inr (.inl rfl)) (unpack_prefix (by omega) (lpa_invalid hz h1 h8 h6))

/-- The overflow form of width 64 starts with a zero byte and has 9 bytes (R39). -/
theorem startsWith_overflow_w64 {w : Window} {v : Nat} (hlo : base 9 ≤ v)
    (hw : StartsWith w (canonicalForm .w64 v)) : w.byte 0 = 0 ∧ (canonicalForm .w64 v).length = 9 := by
  rw [canonicalForm_overflow (W := .w64) hlo] at hw ⊢
  exact ⟨(startsWith_cons (b := 0) hw).1, length_packOvf _ _⟩

/-- The payload of an overflow form depends on the bytes of the form alone (R23). -/
theorem overflowPayload_congr {w w' : Window} {L : Nat} (h1 : 1 ≤ L) (h : SamePrefix L w w') :
    overflowPayload L w = overflowPayload L w' := by
  rw [← payloadOf_overflow, ← payloadOf_overflow, payloadOf_congr .overflow h1 h]

/-- DEC.U32 of a whole overflow form in numbers: the greatest payload in range is `2^32 - 1 - OB(32)` (R73, R80). -/
theorem decU32_overflow_in_numbers {u : State} (h0 : u.req.winIn.byte 0 = 0) (ha : 5 ≤ u.req.avail) :
    (0xEFDFBF7F < overflowPayload 5 u.req.winIn → Raises .decU32 u .outOfRange) ∧
      (overflowPayload 5 u.req.winIn ≤ 0xEFDFBF7F → 270549120 + overflowPayload 5 u.req.winIn ≤ 2 ^ 32 - 1 ∧
        Returns .decU32 u (ofUnsigned (270549120 + overflowPayload 5 u.req.winIn)) 5) := by
  obtain ⟨hreturns, hraises⟩ := (Certificates.decodeUnsigned .w32 u).2 h0 ha
  rw [ovfBase_w32, Width.bits, maxBytes] at hreturns hraises
  refine ⟨fun hp => hraises (by omega), fun hp => ?_⟩
  have hsum : 270549120 + overflowPayload 5 u.req.winIn ≤ 2 ^ 32 - 1 := by omega
  exact ⟨hsum, hreturns hsum⟩

/-- Settles O32: the class of the value at width 64 decides the first byte, and with it what width 32 makes of the
form. -/
theorem truncationAndCrossWidthDecoding : Obligations.TruncationAndCrossWidthDecoding := by
  refine ⟨fun W s L f hl hshort => raises_of_unpack_error (.inr (.inl rfl)) (unpack_short hl hshort), ?_⟩
  rintro s t u _ rfl ht hok hpre ha
  obtain ⟨hlen, hw, hall⟩ := startsWith_of_encU_next (W := .w64) ht hok hpre ha
  rw [← base_six, ← base_nine]
  refine ⟨fun hlo hhi => raises_decU32_of_class_five hlo hhi hw hall,
    fun hlo hhi => raises_decU32_of_class_gt_five hlo hhi hw hall, fun hlo => ?_⟩
  obtain ⟨h0, h9⟩ := startsWith_overflow_w64 hlo hw
  have hpay : overflowPayload 5 u.req.winIn = overflowPayload 5 t.resp.winOut :=
    overflowPayload_congr (by decide) fun k hk => hpre k (by omega)
  obtain ⟨hraises, hreturns⟩ := decU32_overflow_in_numbers h0 (by omega)
  rw [hpay] at hraises hreturns
  refine ⟨h0, hraises, fun hp => ?_⟩
  obtain ⟨hsum, hret⟩ := hreturns hp
  have hx : (ofUnsigned (270549120 + overflowPayload 5 t.resp.winOut)).toNat =
      270549120 + overflowPayload 5 t.resp.winOut := ofUnsigned_toNat (W := .w32) hsum
  refine ⟨_, fun heq => ?_, hx, hx.symm ▸ hsum, hret⟩
  have hlarge : 2 ^ 32 ≤ s.req.valIn.toNat := Nat.le_trans (by decide) hlo
  rw [heq] at hx
  omega

end Sys2Proof.Machine

/-! ## The zigzag transform as operations (44_zigzag.md, R83, R84, R88) -/

namespace Sys2Proof.Machine

open Sys2Proof.Safety

@[simp] theorem withValue_valIn (s : State) (v : Value) : (withValue s v).req.valIn = v := rfl

/-! ### What ZZ and UNZZ answer -/

/-- In range, ZZ answers the zigzag image (R84). -/
theorem returns_zz {W : Width} {s : State} (h : inRangeS W s.req.valIn.toInt) :
    Returns (.zz W) s (ofUnsigned (zigzag W s.req.valIn.toInt)) 0 := by
  rw [returns_iff, responseTo_zz, Request.valSigned, zz_ok h, deliver_ok]

/-- Out of range, ZZ raises `OutOfRange` (R84). -/
theorem raises_zz {W : Width} {s : State} (h : ¬ inRangeS W s.req.valIn.toInt) : Raises (.zz W) s .outOfRange := by
  rw [raises_iff, responseTo_zz, Request.valSigned, zz_error h, deliver_error]

/-- In range, UNZZ answers the integer the operand is the image of (R88). -/
theorem returns_unzz {W : Width} {s : State} (h : inRangeU W s.req.valIn.toNat) :
    Returns (.unzz W) s (ofSigned (unzigzag W s.req.valIn.toNat)) 0 := by
  rw [returns_iff, responseTo_unzz, Request.valUnsigned, unzz_ok h, deliver_ok]

/-- Out of range, UNZZ raises `OutOfRange` (R88). -/
theorem raises_unzz {W : Width} {s : State} (h : ¬ inRangeU W s.req.valIn.toNat) :
    Raises (.unzz W) s .outOfRange := by
  rw [raises_iff, responseTo_unzz, Request.valUnsigned, unzz_error h, deliver_error]

/-- Settles O34: the operand is in the signed range or not, and the image is the integer formula of R81. -/
theorem zigzagOperation : Obligations.ZigzagOperation := by
  rintro W s _ rfl
  refine ⟨decode_commandWord W 0 3, fun hlo hhi => ?_, fun hout => ?_⟩
  · have hn : inRangeS W s.req.valIn.toInt := ⟨hlo, hhi⟩
    exact ⟨_, zigzag_eq hn, zigzag_inRange W _, returns_zz hn⟩
  · have hn : ¬ inRangeS W s.req.valIn.toInt := fun ⟨hlo, hhi⟩ => hout.elim (not_lt.2 hlo) (not_lt.2 hhi)
    exact ⟨ne_w128_of_not_inRangeS hn, raises_zz hn⟩

/-- Settles O35: the operand is in the unsigned range or not, and the result is the integer formula of R82. -/
theorem unzigzagOperation : Obligations.UnzigzagOperation := by
  rintro W s _ rfl
  refine ⟨decode_commandWord W 0 4, fun hu => ?_, fun hout => ?_⟩
  · obtain ⟨hlo, hhi⟩ := unzigzag_inRange hu
    rw [← unzigzag_eq hu]
    exact ⟨hlo, hhi, returns_unzz hu⟩
  · have hu := Nat.not_le.2 hout
    exact ⟨ne_w128_of_not_inRangeU hu, raises_unzz hu⟩

/-! ### ZZ and UNZZ undo each other (R83) -/

/-- UNZZ of a delivered image gives the operand back (R83). -/
theorem returns_unzz_zigzag {W : Width} {s : State} {v : Value} (h : inRangeS W v.toInt)
    (hs : s.req.valIn = ofUnsigned (zigzag W v.toInt)) : Returns (.unzz W) s v 0 := by
  have hnat : s.req.valIn.toNat = zigzag W v.toInt := by rw [hs, ofUnsigned_toNat (zigzag_inRange W _)]
  have hret := returns_unzz (s := s) (hnat ▸ zigzag_inRange W _)
  rwa [hnat, unzigzag_zigzag h, ofSigned_toInt_self] at hret

/-- ZZ of a delivered integer gives back the operand it was made of (R83). -/
theorem returns_zz_unzigzag {W : Width} {s : State} {v : Value} (h : inRangeU W v.toNat)
    (hs : s.req.valIn = ofSigned (unzigzag W v.toNat)) : Returns (.zz W) s v 0 := by
  have hint : s.req.valIn.toInt = unzigzag W v.toNat := by rw [hs, ofSigned_toInt (unzigzag_inRange h)]
  have hret := returns_zz (s := s) (hint ▸ unzigzag_inRange h)
  rwa [hint, zigzag_unzigzag h, ofUnsigned_toNat_self] at hret

/-- The image of an integer in range of two widths does not depend on the width (R83). -/
theorem zigzag_eq_zigzag {W W' : Width} {n : Int} (h : inRangeS W n) (h' : inRangeS W' n) :
    zigzag W n = zigzag W' n :=
  Int.ofNat_inj.1 ((zigzag_eq h).trans (zigzag_eq h').symm)

/-- Settles O36: an operation that succeeded had its operand in range, where the transforms are inverse and the image
is one at every width. -/
theorem zigzagIsABijection : Obligations.ZigzagIsABijection := by
  refine ⟨fun W s t ht hok => ?_, fun W s t ht hok => ?_, fun W W' s t t' ht hok ht' hok' => ?_⟩
  · obtain ⟨hn, hr⟩ := zz_next_ok ht hok
    exact returns_unzz_zigzag hn (by rw [withValue_valIn, hr, okValue_valOut])
  · obtain ⟨hu, hr⟩ := unzz_next_ok ht hok
    exact returns_zz_unzigzag hu (by rw [withValue_valIn, hr, okValue_valOut])
  · obtain ⟨hn, hr⟩ := zz_next_ok ht hok
    obtain ⟨hn', hr'⟩ := zz_next_ok ht' hok'
    rw [hr, hr', zigzag_eq_zigzag hn hn']

end Sys2Proof.Machine

/-! ## The signed codec (45_signed.md, R92 to R99) -/

namespace Sys2Proof.Machine

open Sys2Proof.Safety

/-! ### ENC.S is ENC.U of the zigzag image (R92) -/

/-- In range, ENC.S answers the canonical form of the zigzag image (R92). -/
theorem responseTo_encS_ok {W : Width} {q : Request} (h : inRangeS W q.valIn.toInt) :
    responseTo (.encS W) q = okForm (canonicalForm W (zigzag W q.valIn.toInt)) := by
  rw [responseTo_encS, Request.valSigned, encS_ok h, deliver_ok]

/-- Out of range, ENC.S raises `OutOfRange` (R92). -/
theorem raises_encS {W : Width} {s : State} (h : ¬ inRangeS W s.req.valIn.toInt) :
    Raises (.encS W) s .outOfRange := by
  rw [raises_iff, responseTo_encS, Request.valSigned, encS_error h, deliver_error]

/-- A successful ENC.S had an operand in range (R92). -/
theorem inRangeS_of_encS_next {W : Width} {s t : State} (ht : exec (.encS W) s = .next t)
    (hok : t.resp.status = .ok) : inRangeS W s.req.valIn.toInt := by
  by_contra h
  rw [exec_eq_next.1 ht, raises_iff.1 (raises_encS h)] at hok
  cases hok

/-- ENC.U of the zigzag image answers what ENC.S answers (R92). -/
theorem responseTo_encU_zigzag {W : Width} {s : State} (h : inRangeS W s.req.valIn.toInt) :
    responseTo (.encU W) (withValue s (ofUnsigned (zigzag W s.req.valIn.toInt))).req =
      responseTo (.encS W) s.req := by
  have hu := zigzag_inRange W s.req.valIn.toInt
  have hport := ofUnsigned_toNat hu
  rw [responseTo_encS_ok h, responseTo_encU_ok (by rwa [withValue_valIn, hport]), withValue_valIn, hport]

/-- In range, ENC.S and ENC.U of the zigzag image succeed with one response (R92). -/
theorem encS_answers_as_encU {W : Width} {s : State} (h : inRangeS W s.req.valIn.toInt) :
    ∃ r, Answers (.encS W) s r ∧ Answers (.encU W) (withValue s (ofUnsigned (zigzag W s.req.valIn.toInt))) r ∧
      r.status = .ok :=
  ⟨_, answers_iff.2 rfl, answers_iff.2 (responseTo_encU_zigzag h), by rw [responseTo_encS_ok h, okForm_status]⟩

/-- The integer formula of R81 determines the image. -/
theorem zigzag_eq_of_zigzagInt {W : Width} {n : Int} {u : Nat} (h : inRangeS W n) (hu : (u : Int) = zigzagInt n) :
    zigzag W n = u :=
  Int.ofNat_inj.1 ((zigzag_eq h).trans hu.symm)

/-- Settles O37: the operand is in the signed range or not, and in range the form is the canonical form of the image.
(The plain name is the model's own `encodeSigned`.) -/
theorem Certificates.encodeSigned : Obligations.EncodeSigned := by
  rintro W s _ rfl
  refine ⟨decode_commandWord W 1 0, fun hout => ?_, fun hlo hhi u hu => ?_⟩
  · have hn : ¬ inRangeS W s.req.valIn.toInt := fun ⟨hlo, hhi⟩ => hout.elim (not_lt.2 hlo) (not_lt.2 hhi)
    exact ⟨ne_w128_of_not_inRangeS hn, raises_encS hn⟩
  · have hn : inRangeS W s.req.valIn.toInt := ⟨hlo, hhi⟩
    obtain rfl := zigzag_eq_of_zigzagInt hn hu
    have hform := responseTo_encS_ok hn
    exact ⟨zigzag_inRange W _, encS_answers_as_encU hn, fun _ => writes_canonicalForm_marker hform,
      writes_canonicalForm_overflow hform⟩

/-- Settles O38: ZZ and ENC.S make the same range test, and ENC.U accepts every image. -/
theorem encodeSignedIsZigzagThenEncode : Obligations.EncodeSignedIsZigzagThenEncode := by
  refine fun W s t ht => ⟨fun hok => ?_, fun hfail => ?_⟩
  · obtain ⟨hn, hr⟩ := zz_next_ok ht hok
    rw [hr, okValue_valOut]
    exact encS_answers_as_encU hn
  · rw [exec_eq_next.1 ht] at hfail ⊢
    have hn : ¬ inRangeS W s.req.valIn.toInt := fun hn => hfail (by rw [returns_iff.1 (returns_zz hn), okValue_status])
    exact ⟨by rw [raises_iff.1 (raises_zz hn), raise_status], raises_encS hn⟩

/-! ### DEC.S is DEC.U and the inverse transform (R96) -/

/-- Where DEC.U answers a value in range, DEC.S answers the integer it is the zigzag image of (R82, R96). -/
theorem returns_decS_of_decU {W : Width} {s : State} {v L : Nat} (hv : inRangeU W v)
    (h : Returns (.decU W) s (ofUnsigned v) L) : Returns (.decS W) s (ofSigned (unzigzagInt v)) L := by
  obtain ⟨x, n, hd, hr, _, hx⟩ := decU_next_ok h rfl
  have hxv : v = x := by
    have hnat := congrArg (fun r => r.valOut.toNat) hr
    rwa [okValue_valOut, ofUnsigned_toNat hv, ofUnsigned_toNat hx] at hnat
  have hlen : BitVec.ofNat 5 L = BitVec.ofNat 5 n := congrArg Response.lenOut hr
  subst hxv
  rw [returns_iff, responseTo_decS, decS_ok hd, deliver_ok, unzigzag_eq hv, okValue, okValue, hlen]

/-- Where DEC.U raises an error, DEC.S raises the same (R96). -/
theorem raises_decS_of_decU {W : Width} {s : State} {k : ErrorKind} (h : Raises (.decU W) s k) :
    Raises (.decS W) s k := by
  rw [raises_iff, responseTo_decU] at h
  rw [raises_iff, responseTo_decS]
  cases e : decU W s.req.winIn s.req.avail with
  | ok a =>
    rw [e] at h
    cases h
  | error k' =>
    rw [e] at h
    rw [decS_error e]
    exact h

/-- Settles O39: DEC.U's answer to the form, through the inverse transform. (The plain name is the model's own
`decodeSigned`.) -/
theorem Certificates.decodeSigned : Obligations.DecodeSigned := by
  intro W s
  obtain ⟨hmarker, hoverflow⟩ := Certificates.decodeUnsigned W s
  refine ⟨fun L hpre hM ha => ?_, fun hzero ha => ?_⟩
  · obtain ⟨hreturns, hraises⟩ := hmarker L hpre hM ha
    refine ⟨fun hv => returns_decS_of_decU hv (hreturns hv), fun hv => ?_⟩
    obtain ⟨_, _, hraise⟩ := hraises hv
    exact raises_decS_of_decU hraise
  · obtain ⟨hreturns, hraises⟩ := hoverflow hzero ha
    exact ⟨fun hv => returns_decS_of_decU hv (hreturns hv), fun hv => raises_decS_of_decU (hraises hv)⟩

/-- What DEC.U answered is a value in range or an error (R73, R74). -/
theorem returns_or_raises_decU (W : Width) (s : State) :
    (∃ v L, inRangeU W v ∧ Returns (.decU W) s (ofUnsigned v) L) ∨ ∃ k, Raises (.decU W) s k := by
  cases e : decU W s.req.winIn s.req.avail with
  | ok a =>
    obtain ⟨_, _, _, _, hv⟩ := decU_eq_ok e
    exact .inl ⟨a.1, a.2, hv, by rw [returns_iff, responseTo_decU, e, deliver_ok]⟩
  | error k => exact .inr ⟨k, by rw [raises_iff, responseTo_decU, e, deliver_error]⟩

/-- UNZZ of a value in range answers the integer of R82 (R88). -/
theorem returns_unzz_withValue {W : Width} {s : State} {v : Nat} (hv : inRangeU W v) :
    Returns (.unzz W) (withValue s (ofUnsigned v)) (ofSigned (unzigzagInt v)) 0 := by
  have hport := ofUnsigned_toNat hv
  have hret := returns_unzz (W := W) (s := withValue s (ofUnsigned v)) (by rwa [withValue_valIn, hport])
  rwa [withValue_valIn, hport, unzigzag_eq hv] at hret

/-- DEC.S of what ENC.S wrote: DEC.U reads the image back, and the inverse transform gives the operand (R83, R96). -/
theorem returns_decS_of_encS_next {W : Width} {s t u : State} (ht : exec (.encS W) s = .next t)
    (hok : t.resp.status = .ok) (hpre : SamePrefix t.resp.lenOut.toNat u.req.winIn t.resp.winOut)
    (ha : t.resp.lenOut.toNat ≤ min u.req.availIn.toNat 18) :
    Returns (.decS W) u s.req.valIn t.resp.lenOut.toNat := by
  have hn := inRangeS_of_encS_next ht hok
  have hu := zigzag_inRange W s.req.valIn.toInt
  rw [exec_eq_next.1 ht, ← responseTo_encU_zigzag hn] at hok hpre ha ⊢
  have hret := returns_decS_of_decU hu (decodeInvertsEncodeUnsigned W _ _ u (exec_eq _ _) hok hpre ha)
  rwa [← unzigzag_eq hu, unzigzag_zigzag hn, ofSigned_toInt_self] at hret

/-- Settles O40: DEC.S answers what DEC.U answers, through the inverse transform, on success and on failure; and what
ENC.S wrote is what ENC.U writes for the image. -/
theorem signedDecodeFollowsUnsigned : Obligations.SignedDecodeFollowsUnsigned := by
  refine ⟨fun W => decode_commandWord W 1 1, fun W s t ht => ?_, fun W s t u => returns_decS_of_encS_next⟩
  rw [exec_eq_next.1 ht]
  obtain ⟨v, L, hv, hU⟩ | ⟨k, hU⟩ := returns_or_raises_decU W s
  · have hS := returns_decS_of_decU hv hU
    rw [returns_iff.1 hU]
    refine ⟨_, hS, rfl, rfl, rfl, fun _ => ⟨?_, returns_unzz_withValue hv⟩⟩
    have hs := unzigzag_inRange hv
    rw [unzigzag_eq hv] at hs
    rw [okValue_valOut, ofUnsigned_toNat hv]
    exact ofSigned_toInt hs
  · rw [raises_iff.1 hU]
    exact ⟨_, raises_decS_of_decU hU, rfl, rfl, rfl, fun hok => by cases hok⟩

end Sys2Proof.Machine

/-! ## Errors (60_exceptions.md, R107, R109) -/

namespace Sys2Proof.Machine

open Sys2Proof.Safety

/-! ### A request for each status (R109) -/

/-- One request per status, whichever operation it is put to. `OK`: the value and payload 0, class 1 and its form 0x80.
`OutOfRange`: an operand above the narrower ranges and every marker field, and an overflow form of ones.
`TruncatedInput`: an empty window. `InvalidPrefix`: a first byte of length 6 and class 0. -/
def requestReporting : Status → Request
  | .ok => { Request.zero with lenIn := 1, winIn := Window.memWrite [0x80], availIn := 1 }
  | .error .outOfRange =>
    { Request.zero with
      valIn := BitVec.ofNat 128 (2 ^ 126), lenIn := 1, winIn := Window.memWrite (0x00 :: List.replicate 17 0xFF),
      availIn := 18 }
  | .error .truncatedInput => Request.zero
  | .error .invalidPrefix => { Request.zero with winIn := Window.memWrite [0x04], availIn := 1 }

/-- Every command accepts it, and so does every `byte0` row but the three of R36 that announce no length of width 32. -/
theorem status_requestReporting_ok {i : Instr} (h : mayReport i .ok = true) :
    (responseTo i (requestReporting .ok)).status = .ok := by
  cases i with
  | byte0W32Z5 | byte0W32Z6 | byte0W32Z7 => cases h
  | _ => rfl

/-- The causes of R102: the operand, the decoded sum, the payload of a class, and UNPACK.128's payload. -/
theorem status_requestReporting_outOfRange {i : Instr} (h : mayReport i (.error .outOfRange) = true) :
    (responseTo i (requestReporting (.error .outOfRange))).status = .error .outOfRange := by
  cases i with
  | encU32 | encU64 | encS32 | encS64 | zz32 | zz64 | unzz32 | unzz64 => rfl
  | decU32 | decU64 | decU128 | decS32 | decS64 | decS128 => rfl
  | pack32 | pack64 | pack128 => rfl
  | unpack128 => rfl
  | _ => cases h

/-- The operations of R103 are those that read a form. -/
theorem status_requestReporting_truncatedInput {i : Instr} (h : mayReport i (.error .truncatedInput) = true) :
    (responseTo i (requestReporting (.error .truncatedInput))).status = .error .truncatedInput := by
  cases i with
  | decU32 | decU64 | decU128 | decS32 | decS64 | decS128 | unpack32 | unpack64 | unpack128 => rfl
  | _ => cases h

/-- The causes of R105: the first byte at width 32, in a command or a row, and PACK's class length. -/
theorem status_requestReporting_invalidPrefix {i : Instr} (h : mayReport i (.error .invalidPrefix) = true) :
    (responseTo i (requestReporting (.error .invalidPrefix))).status = .error .invalidPrefix := by
  cases i with
  | decU32 | decS32 | unpack32 | peek32 | byte0W32Z5 | byte0W32Z6 | byte0W32Z7 => rfl
  | pack32 | pack64 | pack128 => rfl
  | _ => cases h

/-- An operation that R109's matrix lets report a status reports it on the request made for the status. -/
theorem status_requestReporting {i : Instr} {st : Status} (h : mayReport i st = true) :
    (responseTo i (requestReporting st)).status = st := by
  match st with
  | .ok => exact status_requestReporting_ok h
  | .error .outOfRange => exact status_requestReporting_outOfRange h
  | .error .truncatedInput => exact status_requestReporting_truncatedInput h
  | .error .invalidPrefix => exact status_requestReporting_invalidPrefix h

/-- Settles O44: an allowed response has a status of the matrix, and each status of the matrix has its request. -/
theorem statusMatrix : Obligations.StatusMatrix := by
  refine fun i st _ => ⟨?_, fun h => ⟨⟨requestReporting st, Response.atReset⟩, _, exec_eq i _, ?_⟩⟩
  · rintro ⟨s, t, ht, rfl⟩
    obtain ⟨hm, _⟩ := allowed_responseTo i s.req
    rwa [exec_eq_next.1 ht]
  · exact status_requestReporting h

/-! ### More bytes after an error (R107) -/

/-- A delivered computation with an error status raised that error (R106). -/
theorem eq_error_of_deliver_status {α : Type} {f : α → Response} (hf : ∀ a, (f a).status = .ok)
    {x : Except ErrorKind α} {k : ErrorKind} (h : (deliver f x).status = .error k) : x = .error k := by
  rw [deliver_status hf] at h
  cases x with
  | ok a => cases h
  | error k' =>
    cases h
    rfl

/-- What `unpack` answers, unless it is a truncation, it answers whatever follows the bytes present (R107). -/
theorem unpack_of_more_bytes {W : Width} {w w' : Window} {avail avail' : Nat}
    (h : unpack W w avail ≠ .error .truncatedInput) (hpre : SamePrefix avail w' w) (hle : avail ≤ avail') :
    unpack W w' avail' = unpack W w avail := by
  cases e : unpack W w avail with
  | ok a =>
    obtain ⟨hl, ha, hp⟩ := unpack_eq_ok.1 e
    obtain ⟨h1, _⟩ := lpa_length hl
    have hbytes : ∀ k, k < a.1 → w.byte k = w'.byte k := fun k hk => (hpre k (by omega)).symm
    exact unpack_eq_ok.2 ⟨hbytes 0 h1 ▸ hl, Nat.le_trans ha hle, hp.trans (payloadOf_congr _ h1 hbytes)⟩
  | error k =>
    obtain ⟨rfl, _⟩ | ⟨rfl, _, h0, hl⟩ := unpack_error e
    · exact absurd e h
    · have hbyte : w'.byte 0 = w.byte 0 := hpre 0 (by omega)
      exact unpack_prefix (by omega) (hbyte ▸ hl)

section ReadsForm

variable {W : Width} {i : Instr} {s : State} (hi : i = .unpack W ∨ i = .decU W ∨ i = .decS W)
include hi

/-- UNPACK and both decoders fail with the error of `unpack` or with `OutOfRange` (R57, R62, R73, R96). -/
theorem unpack_error_of_status {k : ErrorKind} (h : (responseTo i s.req).status = .error k) :
    unpack W s.req.winIn s.req.avail = .error k ∨ k = .outOfRange := by
  obtain rfl | rfl | rfl := hi
  · rw [responseTo_unpack] at h
    obtain hu | ⟨hk, _⟩ := unpackPayload_error_kind (eq_error_of_deliver_status (fun _ => rfl) h)
    · exact .inl hu
    · exact .inr hk
  · rw [responseTo_decU] at h
    exact decU_error_kind (eq_error_of_deliver_status (fun _ => rfl) h)
  · rw [responseTo_decS] at h
    exact decU_error_kind (decS_error_iff.1 (eq_error_of_deliver_status (fun _ => rfl) h))

/-- The response of UNPACK and of both decoders is made of what `unpack` answers (R62, R73, R96). -/
theorem responseTo_congr_unpack {s' : State}
    (h : unpack W s.req.winIn s.req.avail = unpack W s'.req.winIn s'.req.avail) :
    responseTo i s.req = responseTo i s'.req := by
  obtain rfl | rfl | rfl := hi
  · simp only [responseTo_unpack, unpackPayload, h]
  · simp only [responseTo_decU, decU, h]
  · simp only [responseTo_decS, decS, decU, h]

/-- Of a whole form UNPACK and both decoders report `OK` or `OutOfRange` (R104). -/
theorem status_of_whole_form {L : Nat} {f : Form} (hl : lpa W (s.req.winIn.byte 0) = .ok (L, f))
    (ha : L ≤ s.req.avail) :
    (responseTo i s.req).status = .ok ∨ (responseTo i s.req).status = .error .outOfRange := by
  cases e : (responseTo i s.req).status with
  | ok => exact .inl rfl
  | error k =>
    obtain hu | rfl := unpack_error_of_status hi e
    · rw [unpack_form hl ha] at hu
      cases hu
    · exact .inr rfl

/-- The length a truncated form with a first byte announces (R103 b). -/
theorem lpa_of_raises_truncatedInput (h : Raises i s .truncatedInput) (h0 : s.req.availIn ≠ 0) :
    ∃ L f, lpa W (s.req.winIn.byte 0) = .ok (L, f) ∧ s.req.avail < L := by
  have hst : (responseTo i s.req).status = .error .truncatedInput := by rw [raises_iff.1 h, raise_status]
  obtain hu | hk := unpack_error_of_status hi hst
  · obtain ⟨_, hempty | hshort⟩ | ⟨hk, _⟩ := unpack_error hu
    · exact absurd hempty (avail_ne_zero h0)
    · exact hshort
    · cases hk
  · cases hk

/-- An error that is not a truncation stays, whatever follows the bytes present (R107). -/
theorem raises_of_more_bytes {s' : State} {k : ErrorKind} (hk : k ≠ .truncatedInput) (h : Raises i s k)
    (hpre : SamePrefix s.req.avail s'.req.winIn s.req.winIn) (hle : s.req.avail ≤ s'.req.avail) : Raises i s' k := by
  rw [raises_iff] at h
  have hu : unpack W s.req.winIn s.req.avail ≠ .error .truncatedInput := fun e => by
    have hstatus := congrArg Response.status (h.symm.trans (raises_iff.1 (raises_of_unpack_error hi e)))
    exact hk (Status.error.inj hstatus)
  rw [raises_iff, responseTo_congr_unpack hi (unpack_of_more_bytes hu hpre hle), h]

end ReadsForm

/-- Settles O45: the first byte fixes the length a truncated form waits for, and the other errors read nothing past the
bytes present. -/
theorem retryAfterTruncation : Obligations.RetryAfterTruncation := by
  refine fun W i s s' hi => ⟨fun h h0 hbyte => ?_, fun k hk h hpre hle => ?_⟩
  · obtain ⟨L, f, hl, hshort⟩ := lpa_of_raises_truncatedInput hi h h0
    exact ⟨L, f, hl, hshort, fun ha => ⟨_, answers_iff.2 rfl, status_of_whole_form hi (hbyte ▸ hl) ha⟩⟩
  · refine raises_of_more_bytes hi ?_ h hpre hle
    obtain rfl | rfl := hk <;> decide

end Sys2Proof.Machine

/-! ## Signed forms read as unsigned (70_reset_and_hazards.md, R125) -/

namespace Sys2Proof.Machine

open Sys2Proof.Safety

/-- DEC.U of what ENC.S wrote: the same form is what ENC.U writes for the zigzag image, and DEC.U reads that back
(R78, R92). -/
theorem returns_decU_of_encS_next {W : Width} {s t u : State} (ht : exec (.encS W) s = .next t)
    (hok : t.resp.status = .ok) (hpre : SamePrefix t.resp.lenOut.toNat u.req.winIn t.resp.winOut)
    (ha : t.resp.lenOut.toNat ≤ min u.req.availIn.toNat 18) :
    Returns (.decU W) u (ofUnsigned (zigzag W s.req.valIn.toInt)) t.resp.lenOut.toNat := by
  have hn := inRangeS_of_encS_next ht hok
  rw [exec_eq_next.1 ht, ← responseTo_encU_zigzag hn] at hok hpre ha ⊢
  exact decodeInvertsEncodeUnsigned W _ _ u (exec_eq _ _) hok hpre ha

/-- Settles O41: a successful ENC.S had its operand in the signed range, where ZZ delivers the image that DEC.U reads
back. -/
theorem signednessIsNotRecorded : Obligations.SignednessIsNotRecorded := by
  intro W s t u z ht hok hpre ha hz
  have hzz := returns_zz (inRangeS_of_encS_next ht hok)
  rw [exec_eq_next.1 hz, returns_iff.1 hzz, okValue_valOut]
  exact returns_decU_of_encS_next ht hok hpre ha

end Sys2Proof.Machine
